-- ==== Sys2Proof/Word.lean ====
section
/-! DEFINITION. The word types of the machine (spec/00_scope.md R6, R16; spec/30_encoding.md R63). -/

namespace Sys2Proof

/-- A word: a 16-bit unsigned value; `+` and `-` are modulo 65536 (00 R16). -/
abbrev Word := BitVec 16

/-- A console character: one 8-bit byte (00 R13, R14; 92 D16). -/
abbrev Byte := BitVec 8

/-- A 3-bit register field; value `i` names general register `Ri` (30 R63). -/
abbrev Reg := BitVec 3

end Sys2Proof
end

