-- ==== Sys2Proof/Config.lean ====
section
/-! DEFINITION. What the spec leaves to configuration (spec/00_scope.md R7), as one record of plain data, and the one
free value: what the host answers to a `ConIn` call (00 R14). The default values stand in Machine/Defaults.lean. -/

namespace Sys2Proof

/-- The sixteen opcode names, in the order of 30 R65's default numbering. -/
inductive Opcode where
  | br | add | ld | st | jsr | and | ldr | str | rti | not | ldi | sti | jmp | res | lea | trap
  deriving DecidableEq, Repr

/-- All sixteen opcode names ("14 defined, 2 reserved", 30 R65). -/
def Opcode.all : List Opcode :=
  [.br, .add, .ld, .st, .jsr, .and, .ldr, .str, .rti, .not, .ldi, .sti, .jmp, .res, .lea, .trap]

/-- Parameter `OPCODE_OF`: the 4-bit number of each opcode (00 R7, 92 D1). -/
structure OpcodeMap where
  br : BitVec 4
  add : BitVec 4
  ld : BitVec 4
  st : BitVec 4
  jsr : BitVec 4
  and : BitVec 4
  ldr : BitVec 4
  str : BitVec 4
  rti : BitVec 4
  not : BitVec 4
  ldi : BitVec 4
  sti : BitVec 4
  jmp : BitVec 4
  res : BitVec 4
  lea : BitVec 4
  trap : BitVec 4
  deriving DecidableEq, Repr

/-- The number `OPCODE_OF` gives an opcode name. -/
def OpcodeMap.num (m : OpcodeMap) : Opcode → BitVec 4
  | .br => m.br | .add => m.add | .ld => m.ld | .st => m.st
  | .jsr => m.jsr | .and => m.and | .ldr => m.ldr | .str => m.str
  | .rti => m.rti | .not => m.not | .ldi => m.ldi | .sti => m.sti
  | .jmp => m.jmp | .res => m.res | .lea => m.lea | .trap => m.trap

/-- The six trap routines of the core's fixed table (44 R132). -/
inductive Routine where
  | getc | out | puts | inChar | putsp | halt
  deriving DecidableEq, Repr

/-- All six routines, in the order of 44 R132. -/
def Routine.all : List Routine := [.getc, .out, .puts, .inChar, .putsp, .halt]

/-- Parameter `TRAPVEC_OF`: the 8-bit vector of each routine (00 R7, 92 D3). -/
structure TrapVectors where
  getc : Byte
  out : Byte
  puts : Byte
  inChar : Byte
  putsp : Byte
  halt : Byte
  deriving DecidableEq, Repr

/-- The vector `TRAPVEC_OF` gives a routine. -/
def TrapVectors.vec (t : TrapVectors) : Routine → Byte
  | .getc => t.getc | .out => t.out | .puts => t.puts
  | .inChar => t.inChar | .putsp => t.putsp | .halt => t.halt

/-- Parameter `UNKNOWN_TRAP`: what a TRAP with a vector outside the table does (00 R7, 44 R141). -/
inductive UnknownTrap where
  | noop   -- only R7 is written
  | fault  -- halt with reason BAD_TRAP
  deriving DecidableEq, Repr

/-- The parameters of 00 R7, one field each. -/
structure Config where
  /-- `OPCODE_OF` -/
  opcodeOf : OpcodeMap
  /-- `COND_BITS`: the bit of `cond` (and of BR's cond field) that means N -/
  condN : Fin 3
  /-- `COND_BITS`: the bit that means Z -/
  condZ : Fin 3
  /-- `COND_BITS`: the bit that means P -/
  condP : Fin 3
  /-- `TRAPVEC_OF` -/
  trapvecOf : TrapVectors
  /-- `KBSR_ADDR` -/
  kbsrAddr : Word
  /-- `KBDR_ADDR` -/
  kbdrAddr : Word
  /-- `KBSR_READY` -/
  kbsrReady : Word
  /-- `KBSR_IDLE` -/
  kbsrIdle : Word
  /-- `NO_CHAR` -/
  noChar : Word
  /-- `UNKNOWN_TRAP` -/
  unknownTrap : UnknownTrap
  /-- `TRAP_READ_POLLS` -/
  trapReadPolls : Bool
  /-- `HALT_NOTICE` -/
  haltNotice : List Byte
  /-- `IN_PROMPT` -/
  inPrompt : List Byte
  /-- `BADOP_STATUS` -/
  badopStatus : Nat
  deriving DecidableEq, Repr

/-- The parameter values the spec admits: the sixteen opcode numbers name sixteen opcodes (30 R65, R67), N, Z and P are
three different bits (10 R23), the six vectors differ (30 R69), `KBSR_ADDR != KBDR_ADDR` (20 R49), and the status after
a BadOpcode is non-zero (00 R7). -/
abbrev Config.wf (c : Config) : Prop :=
  (Opcode.all.map c.opcodeOf.num).Nodup ∧ [c.condN, c.condZ, c.condP].Nodup ∧
  (Routine.all.map c.trapvecOf.vec).Nodup ∧ c.kbsrAddr ≠ c.kbdrAddr ∧ c.badopStatus ≠ 0

/-- FREE VALUE (00 R9, R14; 92 D6; log 6): the host's answer to the `n`-th `ConIn` call that finds no answer fixed
beforehand: `none` (NONE, no character pending) or the byte it returns. It has no body: nothing can be proved of it. -/
opaque Config.conInDraw : Nat → Option Byte

end Sys2Proof
end

