-- ==== Sys2Proof/Machine/Defaults.lean ====
section
/-! DEFINITION. The default values of the parameters of spec/00_scope.md R7: the values the spec takes for this
hardware. None is stated by the source ([from general knowledge, not in source]); logs 1 to 5, 7 to 9, 11 and 14. -/

namespace Sys2Proof.Machine

/-- `OPCODE_OF`'s default, the standard LC-3 numbering (30 R65, 92 D1). -/
def defaultOpcodes : OpcodeMap where
  br := 0x0
  add := 0x1
  ld := 0x2
  st := 0x3
  jsr := 0x4
  and := 0x5
  ldr := 0x6
  str := 0x7
  rti := 0x8
  not := 0x9
  ldi := 0xA
  sti := 0xB
  jmp := 0xC
  res := 0xD
  lea := 0xE
  trap := 0xF

/-- `TRAPVEC_OF`'s default (44 R132, 92 D3). -/
def defaultVectors : TrapVectors where
  getc := 0x20
  out := 0x21
  puts := 0x22
  inChar := 0x23
  putsp := 0x24
  halt := 0x25

/-- `HALT_NOTICE`'s default: the bytes of `HALT` and a newline (00 R7, 92 D11). -/
def defaultNotice : List Byte := [0x48, 0x41, 0x4C, 0x54, 0x0A]

/-- `IN_PROMPT`'s default: the 19 bytes of `Enter a character: ` (00 R7, 92 D12). -/
def defaultPrompt : List Byte :=
  [0x45, 0x6E, 0x74, 0x65, 0x72, 0x20, 0x61, 0x20] ++
  [0x63, 0x68, 0x61, 0x72, 0x61, 0x63, 0x74, 0x65, 0x72, 0x3A, 0x20]

/-- Every parameter at its default (00 R7). -/
def defaultConfig : Config where
  opcodeOf := defaultOpcodes
  condN := 2
  condZ := 1
  condP := 0
  trapvecOf := defaultVectors
  kbsrAddr := 0xFE00
  kbdrAddr := 0xFE02
  kbsrReady := 0x8000
  kbsrIdle := 0x0000
  noChar := 0xFFFF
  unknownTrap := .noop
  trapReadPolls := false
  haltNotice := defaultNotice
  inPrompt := defaultPrompt
  badopStatus := 1

end Sys2Proof.Machine
end

