-- ==== Sys2Proof/Syntax.lean ====
section
/-! DEFINITION. The instructions: one constructor per row of spec/opcode_table.json, with the fields of
spec/30_encoding.md R62 to R64. Fields an instruction ignores (30 R66) are not part of it. -/

namespace Sys2Proof

inductive Instr where
  /-- ADD, format OPR (41 R92) -/
  | addReg (dr sr1 sr2 : Reg)
  /-- ADD, format OPI (41 R93) -/
  | addImm (dr sr1 : Reg) (imm5 : BitVec 5)
  /-- AND, format OPR (41 R94) -/
  | andReg (dr sr1 sr2 : Reg)
  /-- AND, format OPI (41 R95) -/
  | andImm (dr sr1 : Reg) (imm5 : BitVec 5)
  /-- NOT, format UN (41 R96) -/
  | notReg (dr sr : Reg)
  /-- BR, format BRF: `cond` is bits 11..9, n, z, p by default (42 R100) -/
  | br (cond : BitVec 3) (off9 : BitVec 9)
  /-- JMP, format JR, BaseR other than R7 (42 R101) -/
  | jmp (baseR : Reg)
  /-- RET, the row that refines JMP at BaseR = R7 (42 R101) -/
  | ret
  /-- JSR, format J11 (42 R102) -/
  | jsr (off11 : BitVec 11)
  /-- JSRR, format JRR (42 R103) -/
  | jsrr (baseR : Reg)
  /-- LD, format PC9 (43 R110) -/
  | ld (dr : Reg) (off9 : BitVec 9)
  /-- LDI, format PC9 (43 R111) -/
  | ldi (dr : Reg) (off9 : BitVec 9)
  /-- LDR, format B6 (43 R112) -/
  | ldr (dr baseR : Reg) (off6 : BitVec 6)
  /-- LEA, format PC9 (43 R113) -/
  | lea (dr : Reg) (off9 : BitVec 9)
  /-- ST, format PC9 (43 R114) -/
  | st (sr : Reg) (off9 : BitVec 9)
  /-- STI, format PC9 (43 R115) -/
  | sti (sr : Reg) (off9 : BitVec 9)
  /-- STR, format B6 (43 R116) -/
  | str (sr baseR : Reg) (off6 : BitVec 6)
  /-- TRAP, format TV, a vector outside the table of routines (44 R130, R141) -/
  | trap (trapvect8 : Byte)
  /-- GETC, the row that refines TRAP (44 R134) -/
  | getc
  /-- OUT, the row that refines TRAP (44 R135) -/
  | out
  /-- PUTS, the row that refines TRAP (44 R136) -/
  | puts
  /-- IN, the row that refines TRAP (44 R137) -/
  | inChar
  /-- PUTSP, the row that refines TRAP (44 R138) -/
  | putsp
  /-- HALT, the row that refines TRAP (44 R139) -/
  | halt
  /-- RTI, format NF, reserved (45 R150) -/
  | rti
  /-- RES, format NF, reserved (45 R151) -/
  | res
  deriving DecidableEq, Repr

end Sys2Proof
end

