-- ==== Sys2Proof/WellFormed.lean ====
section
/-! DEFINITION. Which instruction terms are the reading of a word. Every field has its exact width, so two checks
remain: the rows of spec/opcode_table.json that refine another row (RET refines JMP, the six routines refine TRAP) take
their words away from it. -/

namespace Sys2Proof

/-- Well-formed under the parameters `c`: `jmp` does not name R7 (that word is RET, 42 R101), and `trap` does not carry
the vector of a routine (that word is the routine's own row, 30 R65, R69). -/
def Instr.wf (c : Config) : Instr → Bool
  | .jmp baseR => baseR ≠ 7
  | .trap v => v ∉ Routine.all.map c.trapvecOf.vec
  | .addReg _ _ _ | .addImm _ _ _ | .andReg _ _ _ | .andImm _ _ _ | .notReg _ _ => true
  | .br _ _ | .ret | .jsr _ | .jsrr _ => true
  | .ld _ _ | .ldi _ _ | .ldr _ _ _ | .lea _ _ | .st _ _ | .sti _ _ | .str _ _ _ => true
  | .getc | .out | .puts | .inChar | .putsp | .halt | .rti | .res => true

end Sys2Proof
end

