-- ==== Sys2Proof/Decode.lean ====
section
/-! DEFINITION. The decoder of spec/30_encoding.md R70, the encoder written from the same formats (R62), the bits each
instruction reads (R62, R66), and the rows of spec/opcode_table.json. -/

namespace Sys2Proof

/-- Why a word has no instruction: its opcode number is no opcode's. With a well-formed `OPCODE_OF` there is no such
word (30 R67); the machine treats it as a BadOpcode (60 R161: "any value with no defined handler"). -/
inductive DecodeError where
  | noHandler (op : BitVec 4)
  deriving DecidableEq, Repr

/-- `w[lo + n - 1 : lo]` (00 R16). -/
def bits (w : Word) (lo n : Nat) : BitVec n := w.extractLsb' lo n

/-- `w[15:12]` (30 R61). -/
def opcodeBits (w : Word) : BitVec 4 := bits w 12 4

/-- The opcode name whose number is `n` (30 R65). -/
def opcodeName (m : OpcodeMap) (n : BitVec 4) : Option Opcode := Opcode.all.find? (fun o => m.num o = n)

/-- The routine whose vector is `v`: the trap routine table (44 R132). -/
def trapTable (t : TrapVectors) (v : Byte) : Option Routine := Routine.all.find? (fun r => t.vec r = v)

/-- The row of a routine. -/
def routineInstr : Routine → Instr
  | .getc => .getc
  | .out => .out
  | .puts => .puts
  | .inChar => .inChar
  | .putsp => .putsp
  | .halt => .halt

/-- TRAP's words: the routine rows refine TRAP by its vector (30 R65, R69). -/
def decodeTrap (c : Config) (v : Byte) : Instr :=
  match trapTable c.trapvecOf v with
  | some r => routineInstr r
  | none => .trap v

/-- The operand fields of a word whose opcode is `o` (30 R62, R70). -/
def decodeFields (c : Config) (w : Word) : Opcode → Instr
  | .br => .br (bits w 9 3) (bits w 0 9)
  | .add => if bits w 5 1 = 0 then .addReg (bits w 9 3) (bits w 6 3) (bits w 0 3)
            else .addImm (bits w 9 3) (bits w 6 3) (bits w 0 5)
  | .ld => .ld (bits w 9 3) (bits w 0 9)
  | .st => .st (bits w 9 3) (bits w 0 9)
  | .jsr => if bits w 11 1 = 1 then .jsr (bits w 0 11) else .jsrr (bits w 6 3)
  | .and => if bits w 5 1 = 0 then .andReg (bits w 9 3) (bits w 6 3) (bits w 0 3)
            else .andImm (bits w 9 3) (bits w 6 3) (bits w 0 5)
  | .ldr => .ldr (bits w 9 3) (bits w 6 3) (bits w 0 6)
  | .str => .str (bits w 9 3) (bits w 6 3) (bits w 0 6)
  | .rti => .rti
  | .not => .notReg (bits w 9 3) (bits w 6 3)
  | .ldi => .ldi (bits w 9 3) (bits w 0 9)
  | .sti => .sti (bits w 9 3) (bits w 0 9)
  | .jmp => if bits w 6 3 = 7 then .ret else .jmp (bits w 6 3)
  | .res => .res
  | .lea => .lea (bits w 9 3) (bits w 0 9)
  | .trap => decodeTrap c (bits w 0 8)

/-- `decode(w)` (30 R70): reads nothing but the word and the numbering (40 R83). -/
def decode (c : Config) (w : Word) : Except DecodeError Instr :=
  match opcodeName c.opcodeOf (opcodeBits w) with
  | some o => .ok (decodeFields c w o)
  | none => .error (.noHandler (opcodeBits w))

/-- The field `v` in the place whose lowest bit is `lo`, the other bits 0. -/
def place {n : Nat} (v : BitVec n) (lo : Nat) : Word := v.setWidth 16 <<< lo

/-- Format OPR, bits 4..3 zero (30 R62). -/
def encOPR (op : BitVec 4) (d s t : Reg) : Word := place op 12 ||| place d 9 ||| place s 6 ||| place t 0

/-- Format OPI, bit 5 one (30 R62). -/
def encOPI (op : BitVec 4) (d s : Reg) (imm : BitVec 5) : Word :=
  place op 12 ||| place d 9 ||| place s 6 ||| place 1#1 5 ||| place imm 0

/-- Formats BRF and PC9 (30 R62). -/
def encPC9 (op : BitVec 4) (r : BitVec 3) (off : BitVec 9) : Word := place op 12 ||| place r 9 ||| place off 0

/-- Format B6; formats UN and JR with their ignored fields given (30 R62). -/
def encB6 (op : BitVec 4) (r b : Reg) (off : BitVec 6) : Word :=
  place op 12 ||| place r 9 ||| place b 6 ||| place off 0

/-- Format J11, bit 11 one (30 R62). -/
def encJ11 (op : BitVec 4) (off : BitVec 11) : Word := place op 12 ||| place 1#1 11 ||| place off 0

/-- Format JRR, bit 11 and the ignored bits zero (30 R62). -/
def encJRR (op : BitVec 4) (b : Reg) : Word := place op 12 ||| place b 6

/-- Format TV, the ignored bits zero (30 R62). -/
def encTV (op : BitVec 4) (v : Byte) : Word := place op 12 ||| place v 0

/-- Format NF, the ignored bits zero (30 R62). -/
def encNF (op : BitVec 4) : Word := place op 12

/-- The word of an instruction: ignored bits 0, but NOT's bits 5..0 all ones, as assemblers write them (30 R66, R76). -/
def encode (c : Config) : Instr → Word
  | .addReg d s t => encOPR c.opcodeOf.add d s t
  | .addImm d s i => encOPI c.opcodeOf.add d s i
  | .andReg d s t => encOPR c.opcodeOf.and d s t
  | .andImm d s i => encOPI c.opcodeOf.and d s i
  | .notReg d s => encB6 c.opcodeOf.not d s 0b111111
  | .br n off => encPC9 c.opcodeOf.br n off
  | .jmp b => encB6 c.opcodeOf.jmp 0 b 0
  | .ret => encB6 c.opcodeOf.jmp 0 7 0
  | .jsr off => encJ11 c.opcodeOf.jsr off
  | .jsrr b => encJRR c.opcodeOf.jsr b
  | .ld d off => encPC9 c.opcodeOf.ld d off
  | .ldi d off => encPC9 c.opcodeOf.ldi d off
  | .ldr d b off => encB6 c.opcodeOf.ldr d b off
  | .lea d off => encPC9 c.opcodeOf.lea d off
  | .st r off => encPC9 c.opcodeOf.st r off
  | .sti r off => encPC9 c.opcodeOf.sti r off
  | .str r b off => encB6 c.opcodeOf.str r b off
  | .trap v => encTV c.opcodeOf.trap v
  | .getc => encTV c.opcodeOf.trap c.trapvecOf.getc
  | .out => encTV c.opcodeOf.trap c.trapvecOf.out
  | .puts => encTV c.opcodeOf.trap c.trapvecOf.puts
  | .inChar => encTV c.opcodeOf.trap c.trapvecOf.inChar
  | .putsp => encTV c.opcodeOf.trap c.trapvecOf.putsp
  | .halt => encTV c.opcodeOf.trap c.trapvecOf.halt
  | .rti => encNF c.opcodeOf.rti
  | .res => encNF c.opcodeOf.res

/-- The bits of its word an instruction reads: all but those marked `.` in 30 R62 (30 R66). -/
def usedMask : Instr → Word
  | .addReg _ _ _ | .andReg _ _ _ => 0xFFE7
  | .notReg _ _ => 0xFFC0
  | .jmp _ | .ret => 0xF1C0
  | .jsrr _ => 0xF9C0
  | .trap _ | .getc | .out | .puts | .inChar | .putsp | .halt => 0xF0FF
  | .rti | .res => 0xF000
  | .addImm _ _ _ | .andImm _ _ _ | .br _ _ | .jsr _ => 0xFFFF
  | .ld _ _ | .ldi _ _ | .ldr _ _ _ | .lea _ _ | .st _ _ | .sti _ _ | .str _ _ _ => 0xFFFF

/-- The row of spec/opcode_table.json an instruction belongs to, as its `match` and its `mask`. -/
def tableRow : Instr → Word × Word
  | .addReg _ _ _ => (0x1000, 0xF020)
  | .addImm _ _ _ => (0x1020, 0xF020)
  | .andReg _ _ _ => (0x5000, 0xF020)
  | .andImm _ _ _ => (0x5020, 0xF020)
  | .notReg _ _ => (0x9000, 0xF000)
  | .br _ _ => (0x0000, 0xF000)
  | .jmp _ => (0xC000, 0xF000)
  | .ret => (0xC1C0, 0xF1C0)
  | .jsr _ => (0x4800, 0xF800)
  | .jsrr _ => (0x4000, 0xF800)
  | .ld _ _ => (0x2000, 0xF000)
  | .ldi _ _ => (0xA000, 0xF000)
  | .ldr _ _ _ => (0x6000, 0xF000)
  | .lea _ _ => (0xE000, 0xF000)
  | .st _ _ => (0x3000, 0xF000)
  | .sti _ _ => (0xB000, 0xF000)
  | .str _ _ _ => (0x7000, 0xF000)
  | .trap _ => (0xF000, 0xF000)
  | .getc => (0xF020, 0xF0FF)
  | .out => (0xF021, 0xF0FF)
  | .puts => (0xF022, 0xF0FF)
  | .inChar => (0xF023, 0xF0FF)
  | .putsp => (0xF024, 0xF0FF)
  | .halt => (0xF025, 0xF0FF)
  | .rti => (0x8000, 0xF000)
  | .res => (0xD000, 0xF000)

/-- The one cell an instruction of the opcode table fills: `nbits` bits `w`, the rest zero (30 R60). -/
def tableWord (nbits w : Nat) : Word := BitVec.ofNat 16 (w % 2 ^ nbits)

/-- The decoder's reading of a word of the opcode table, in the table's (default) numbering. -/
def decodeTableWord (nbits w : Nat) : Option Instr :=
  match decode Machine.defaultConfig (tableWord nbits w) with
  | .ok i => some i
  | .error _ => none

end Sys2Proof
end

