-- ==== Sys2Proof/Machine/Flags.lean ====
section
/-! DEFINITION. The flag computation (spec/41_operate.md R91) and BR's test of it (spec/42_control.md R100). -/

namespace Sys2Proof.Machine

/-- The flags register with the one bit `i` set. -/
def flagBit (i : Fin 3) : BitVec 3 := 1#3 <<< i.val

/-- What `setcc` writes for the value `v`: Z if it is 0, else N if its bit 15 is set, else P (41 R91). -/
def flagsOf (c : Config) (v : Word) : BitVec 3 :=
  if v = 0 then flagBit c.condZ
  else if v.msb then flagBit c.condN
  else flagBit c.condP

/-- BR is taken: its cond field and the flags intersect (42 R100). -/
def branchTaken (field cond : BitVec 3) : Bool := field &&& cond ≠ 0

end Sys2Proof.Machine
end

