-- ==== Sys2Proof/Machine/Operands.lean ====
section
/-! DEFINITION. The operand forms: sign and zero extension (spec/41_operate.md R90, spec/00_scope.md R17), the bytes of
a word, and the two computed addresses of spec/43_load_store.md. -/

namespace Sys2Proof.Machine

/-- `sext_N`: two's-complement widening of an N-bit field to 16 bits (41 R90). -/
def sext {n : Nat} (v : BitVec n) : Word := v.signExtend 16

/-- `zext_8` (00 R17). -/
def zext8 (c : Byte) : Word := c.setWidth 16

/-- `v[7:0]` (00 R16). -/
def lowByte (v : Word) : Byte := v.extractLsb' 0 8

/-- `v[15:8]` (00 R16). -/
def highByte (v : Word) : Byte := v.extractLsb' 8 8

/-- PC-relative: the incremented pc plus the sign-extended offset, modulo 65536 (30 R64, 20 R41). -/
def pcRelative {n : Nat} (pc : Word) (off : BitVec n) : Word := pc + sext off

/-- Base + offset: the base register's value plus the sign-extended offset6, modulo 65536 (30 R64, 20 R41). -/
def baseOffset (base : Word) (off6 : BitVec 6) : Word := base + sext off6

end Sys2Proof.Machine
end

