-- ==== Sys2Proof/Machine/State.lean ====
section
/-! DEFINITION. The whole state of the block (spec/10_state.md), the console streams its environment keeps
(spec/00_scope.md R13, R14), the parameters (R7), and the state after reset (10 R31). -/

namespace Sys2Proof.Machine

/-- Why a load fails (70 R196). -/
inductive LoadErrorKind where
  | missingOrUnreadable  -- there is no such file, or it cannot be read
  | noOrigin             -- fewer than 2 bytes
  | oddLength            -- a last word cut in half
  | pastEnd              -- more words than fit between the origin and 0xFFFF
  deriving DecidableEq, Repr

/-- Why the machine stops with a fault. No instruction raises one: every stop the spec gives an instruction is a state
(HALTED with its reason, 10 R27, R28). -/
inductive Fault where
  /-- LoadError (60 R162): raised by the load interface (Machine/HostInterface.lean) before the run starts, so the run
  never starts. Safe: the spec gives exactly this. -/
  | loadError (why : LoadErrorKind)
  deriving DecidableEq, Repr

/-- Why the machine has no answer. -/
inductive Refusal where
  /-- Raised by an arm of `exec` for an instruction that has no meaning yet; no arm raises it. Safe. -/
  | notModelled (mnemonic : String)
  /-- Raised by the host's calls `load`, `start`, `abort` (Machine/HostInterface.lean) where 00 R10, R11, R15 do not
  make them available (a load or a second start after the start, an abort of a run that is not going on). No
  instruction raises it. Safe: the spec gives such a call no effect. -/
  | hostCallUnavailable
  deriving DecidableEq, Repr

/-- `halt_reason` (10 R28). -/
inductive HaltReason where
  /-- `HALT_TRAP`: the HALT routine ran -/
  | haltTrap
  /-- `BAD_OPCODE(op, addr)` -/
  | badOpcode (op : BitVec 4) (addr : Word)
  /-- `BAD_TRAP(vec, addr)`, only when `UNKNOWN_TRAP = fault` -/
  | badTrap (vec : Byte) (addr : Word)
  deriving DecidableEq, Repr

/-- `run` (10 R27), with `halt_reason` where there is one (10 R28; log 28). -/
inductive RunState where
  | running
  | halted (reason : HaltReason)
  | aborted
  deriving DecidableEq, Repr

/-- The byte position `half` of PUTSP (10 R29): 0 is the low byte. -/
inductive Half where
  | low
  | high
  deriving DecidableEq, Repr

/-- `te`, the trap engine state (10 R29, 44 R133). -/
inductive TrapEngine where
  | idle
  | getc
  | out
  | puts (ptr : Word)
  | putsp (ptr : Word) (half : Half)
  | inPrompt (k : Nat)
  | inEcho (c : Byte)
  | halt (k : Nat)
  deriving DecidableEq, Repr

/-- One listed cell of memory: its address and its 16 bits (20 R40, R42; log 21). -/
abbrev Cell := Nat × Word

/-- Memory `M`: the cells that do not hold 0x0000, in rising order of address. -/
abbrev Mem := List Cell

structure State where
  /-- the parameters of 00 R7; no step writes them (log 20) -/
  cfg : Config
  /-- the general registers R0 to R7 (10 R20) -/
  x : Vector Word 8
  /-- the program counter (10 R22) -/
  pc : Word
  /-- the condition flags (10 R23) -/
  cond : BitVec 3
  /-- memory, the cells KBSR and KBDR among them (20 R40, R46) -/
  mem : Mem
  /-- the run state, with the halt reason (10 R27, R28) -/
  run : RunState
  /-- the trap engine (10 R29) -/
  te : TrapEngine
  /-- the host has called `start` (00 R11, 40 R80; log 24) -/
  started : Bool
  /-- the answers the host has fixed for the coming `ConIn` calls, the next one first (00 R14; log 6) -/
  answers : List (Option Byte)
  /-- which free answer comes next, once `answers` is empty (00 R14; log 6) -/
  draws : Nat
  /-- the bytes `ConOut` has emitted, the first one first (00 R13; log 26) -/
  out : List Byte
  deriving DecidableEq, Repr

/-- Right after reset (10 R31, 70 R190): every register, cell and flag 0, `run = RUNNING`, `te = IDLE`; nothing loaded,
not started (00 R11), nothing emitted, no answer of the host fixed, the parameters at their defaults. -/
def State.reset : State where
  cfg := defaultConfig
  x := Vector.replicate 8 0
  pc := 0
  cond := 0
  mem := []
  run := .running
  te := .idle
  started := false
  answers := []
  draws := 0
  out := []

end Sys2Proof.Machine
end

