-- ==== Sys2Proof/Machine/Ops.lean ====
section
/-! DEFINITION. The named operations: memory, registers, console, the polling read, fetch, and the two ways control
leaves a program: BadOpcode and the entry into a trap routine, with the return from it. -/

namespace Sys2Proof.Machine

/-- What a meaning answers. -/
abbrev Result := Host.Outcome State Fault Refusal

/-! ## Memory (20 R40, R41) -/

/-- What a cell nothing has written holds (20 R40: "Every cell resets to 0x0000"). -/
def unlistedCell : Word := 0x0000

/-- The value at address `a`. -/
def memGet : Mem → Nat → Word
  | [], _ => unlistedCell
  | (k, v) :: m, a => if k = a then v else memGet m a

/-- `m` without a cell at `a`. -/
def memErase : Mem → Nat → Mem
  | [], _ => []
  | (k, v) :: m, a => if k = a then memErase m a else (k, v) :: memErase m a

/-- `m` with the cell `(a, v)` before the first greater address. -/
def memInsert : Mem → Nat → Word → Mem
  | [], a, v => [(a, v)]
  | (k, u) :: m, a, v => if a < k then (a, v) :: (k, u) :: m else (k, u) :: memInsert m a v

/-- `m` with `v` at `a`, in canonical form. -/
def memPut (m : Mem) (a : Nat) (v : Word) : Mem :=
  if v = unlistedCell then memErase m a else memInsert (memErase m a) a v

/-- `M[a]`. -/
def Mem.read (m : Mem) (a : Word) : Word := memGet m a.toNat

/-- `M[a] <- v`. -/
def Mem.write (m : Mem) (a v : Word) : Mem := memPut m a.toNat v

/-- The canonical form: addresses strictly rising and below 65536, no cell that reads as an unlisted one does. -/
abbrev Mem.wf (m : Mem) : Prop :=
  m.Pairwise (fun p q => p.1 < q.1) ∧ ∀ p ∈ m, p.1 < 65536 ∧ p.2 ≠ unlistedCell

/-! ## Registers (00 R17) -/

/-- `x[i]`. -/
def State.reg (s : State) (i : Reg) : Word := s.x[i.toNat]'(i.isLt)

/-- `x[i] <- v`. -/
def State.setReg (s : State) (i : Reg) (v : Word) : State := { s with x := s.x.set i.toNat v i.isLt }

/-- `pc <- target`. -/
def State.setPc (s : State) (target : Word) : State := { s with pc := target }

/-- `cond <- f`. -/
def State.setCond (s : State) (f : BitVec 3) : State := { s with cond := f }

/-- `te <- t`. -/
def State.setTe (s : State) (t : TrapEngine) : State := { s with te := t }

/-- `run <- r`. -/
def State.setRun (s : State) (r : RunState) : State := { s with run := r }

/-- `setcc(i)`: the flags of the value just written to `x[i]` (41 R91). -/
def State.setcc (s : State) (i : Reg) : State := s.setCond (flagsOf s.cfg (s.reg i))

/-- Write a destination register, then set the flags from it, last (41 R91). -/
def State.writeDest (s : State) (dr : Reg) (v : Word) : State := (s.setReg dr v).setcc dr

/-! ## Console (00 R13, R14) -/

/-- `ConOut(b)`: the byte follows all bytes emitted before it (00 R13). -/
def State.conOut (s : State) (b : Byte) : State := { s with out := s.out ++ [b] }

/-- `ConIn()`: the host's next answer, a fixed one while there is one, else a free draw (00 R14, D6; log 6). -/
def State.conIn (s : State) : Option Byte × State :=
  match s.answers with
  | a :: rest => (a, { s with answers := rest })
  | [] => (Config.conInDraw s.draws, { s with draws := s.draws + 1 })

/-! ## Memory access (20 R45 to R48) -/

/-- `CellRead(a)`: no side effect (00 R18). -/
def State.cell (s : State) (a : Word) : Word := s.mem.read a

/-- `MemWrite(a, 16, v)`: plain, no side effect, KBSR and KBDR included (20 R47). -/
def State.memWrite (s : State) (a v : Word) : State := { s with mem := s.mem.write a v }

/-- What a poll writes, given the host's answer (20 R46). -/
def State.refreshKb (s : State) : Option Byte → State
  | some c => (s.memWrite s.cfg.kbsrAddr s.cfg.kbsrReady).memWrite s.cfg.kbdrAddr (zext8 c)
  | none => s.memWrite s.cfg.kbsrAddr s.cfg.kbsrIdle

/-- `KbPoll()` (20 R46). -/
def State.kbPoll (s : State) : State := s.conIn.2.refreshKb s.conIn.1

/-- The state a read of address `a` leaves: a read of KBSR polls first, any other changes nothing (20 R45, R48). -/
def State.afterRead (s : State) (a : Word) : State := if a = s.cfg.kbsrAddr then s.kbPoll else s

/-- `MemRead(a, 16)`: the cell after the poll, and the state the read leaves (20 R45). -/
def State.memRead (s : State) (a : Word) : Word × State := ((s.afterRead a).cell a, s.afterRead a)

/-- `TrapRead(a)`: `MemRead` if `TRAP_READ_POLLS`, else `CellRead` (44 R140). -/
def State.trapRead (s : State) (a : Word) : Word × State :=
  if s.cfg.trapReadPolls then s.memRead a else (s.cell a, s)

/-! ## The step's parts (40 R80 to R82) -/

/-- The core takes a step: the host has started the run and `run = RUNNING` (40 R80). -/
def State.enabled (s : State) : Bool := s.started && decide (s.run = .running)

/-- Fetch with the polling read, then increment the pc modulo 65536 (40 R81, R82). -/
def State.fetch (s : State) : Word × State :=
  ((s.memRead s.pc).1, (s.memRead s.pc).2.setPc (s.pc + 1))

/-- `fa`, seen from a handler: the pc is already fa + 1 (40 R82, R86; log 25). -/
def State.fetchAddr (s : State) : Word := s.pc - 1

/-! ## Leaving the program: BadOpcode, trap entry, trap return -/

/-- `raise BadOpcode(op, fa)`: nothing but `run` and `halt_reason` changes (60 R161). -/
def State.raiseBadOpcode (s : State) (op : BitVec 4) : State := s.setRun (.halted (.badOpcode op s.fetchAddr))

/-- `Start(r)`: the initial engine state of a routine (44 R133). -/
def startRoutine (r : Routine) (x0 : Word) : TrapEngine :=
  match r with
  | .getc => .getc
  | .out => .out
  | .puts => .puts x0
  | .putsp => .putsp x0 .low
  | .inChar => .inPrompt 0
  | .halt => .halt 0

/-- TRAP saves the return address, the incremented pc, in R7 before it dispatches (44 R130, R131; 60 R167). -/
def State.saveReturn (s : State) : State := s.setReg 7 s.pc

/-- Trap entry for a routine of the table: save, then start the engine (44 R130, R133). -/
def State.enterRoutine (s : State) (r : Routine) : State :=
  s.saveReturn.setTe (startRoutine r (s.saveReturn.reg 0))

/-- `UnknownTrap(vec, fa)`: nothing more, or a halt with BAD_TRAP (44 R141). -/
def State.unknownTrap (s : State) (vec : Byte) : State :=
  match s.cfg.unknownTrap with
  | .noop => s
  | .fault => s.setRun (.halted (.badTrap vec s.fetchAddr))

/-- TRAP with any vector: the table entry's routine, or an unlisted vector (44 R130). -/
def State.enterTrap (s : State) (vec : Byte) : State :=
  match trapTable s.cfg.trapvecOf vec with
  | some r => s.enterRoutine r
  | none => s.saveReturn.unknownTrap vec

/-- Trap return: the routine is complete, the next fetch is from `pc` (60 R168). -/
def State.leaveRoutine (s : State) : State := s.setTe .idle

end Sys2Proof.Machine
end

