-- ==== Sys2Proof/Machine/Control.lean ====
section
/-! DEFINITION. BR, JMP, RET, JSR, JSRR (spec/42_control.md). `s.pc` is the incremented pc (40 R82). -/

namespace Sys2Proof.Machine

/-- BR (42 R100). -/
def execBr (cond : BitVec 3) (off9 : BitVec 9) (s : State) : Result :=
  .next (if branchTaken cond s.cond then s.setPc (pcRelative s.pc off9) else s)

/-- JMP (42 R101). -/
def execJmp (baseR : Reg) (s : State) : Result := .next (s.setPc (s.reg baseR))

/-- RET, which is JMP R7 (42 R101). -/
def execRet (s : State) : Result := .next (s.setPc (s.reg 7))

/-- JSR (42 R102). -/
def execJsr (off11 : BitVec 11) (s : State) : Result :=
  .next ((s.setReg 7 s.pc).setPc (pcRelative s.pc off11))

/-- JSRR: R7 is written before BaseR is read (42 R103). -/
def execJsrr (baseR : Reg) (s : State) : Result :=
  .next ((s.setReg 7 s.pc).setPc ((s.setReg 7 s.pc).reg baseR))

end Sys2Proof.Machine
end

