-- ==== Sys2Proof/Machine/LoadStore.lean ====
section
/-! DEFINITION. LD, LDI, LDR, LEA, ST, STI, STR (spec/43_load_store.md). Every read is the polling read. -/

namespace Sys2Proof.Machine

/-- Read `ea`, write the value to `x[dr]`, set the flags from it: what the three loads share. -/
def State.loadFrom (s : State) (dr : Reg) (ea : Word) : State := (s.memRead ea).2.writeDest dr (s.memRead ea).1

/-- LD (43 R110). -/
def execLd (dr : Reg) (off9 : BitVec 9) (s : State) : Result := .next (s.loadFrom dr (pcRelative s.pc off9))

/-- LDI: the pointer read, then the data read (43 R111). -/
def execLdi (dr : Reg) (off9 : BitVec 9) (s : State) : Result :=
  .next ((s.memRead (pcRelative s.pc off9)).2.loadFrom dr (s.memRead (pcRelative s.pc off9)).1)

/-- LDR (43 R112). -/
def execLdr (dr baseR : Reg) (off6 : BitVec 6) (s : State) : Result :=
  .next (s.loadFrom dr (baseOffset (s.reg baseR) off6))

/-- LEA: the address only, no memory access (43 R113). -/
def execLea (dr : Reg) (off9 : BitVec 9) (s : State) : Result := .next (s.writeDest dr (pcRelative s.pc off9))

/-- ST (43 R114). -/
def execSt (sr : Reg) (off9 : BitVec 9) (s : State) : Result :=
  .next (s.memWrite (pcRelative s.pc off9) (s.reg sr))

/-- STI: the polling pointer read, then the store (43 R115). -/
def execSti (sr : Reg) (off9 : BitVec 9) (s : State) : Result :=
  .next ((s.memRead (pcRelative s.pc off9)).2.memWrite (s.memRead (pcRelative s.pc off9)).1
    ((s.memRead (pcRelative s.pc off9)).2.reg sr))

/-- STR (43 R116). -/
def execStr (sr baseR : Reg) (off6 : BitVec 6) (s : State) : Result :=
  .next (s.memWrite (baseOffset (s.reg baseR) off6) (s.reg sr))

end Sys2Proof.Machine
end

