-- ==== Sys2Proof/Machine/Operate.lean ====
section
/-! DEFINITION. ADD, AND, NOT (spec/41_operate.md). -/

namespace Sys2Proof.Machine

/-- ADD, register mode (41 R92). -/
def execAddReg (dr sr1 sr2 : Reg) (s : State) : Result := .next (s.writeDest dr (s.reg sr1 + s.reg sr2))

/-- ADD, immediate mode (41 R93). -/
def execAddImm (dr sr1 : Reg) (imm5 : BitVec 5) (s : State) : Result :=
  .next (s.writeDest dr (s.reg sr1 + sext imm5))

/-- AND, register mode (41 R94). -/
def execAndReg (dr sr1 sr2 : Reg) (s : State) : Result := .next (s.writeDest dr (s.reg sr1 &&& s.reg sr2))

/-- AND, immediate mode (41 R95). -/
def execAndImm (dr sr1 : Reg) (imm5 : BitVec 5) (s : State) : Result :=
  .next (s.writeDest dr (s.reg sr1 &&& sext imm5))

/-- NOT (41 R96). -/
def execNot (dr sr : Reg) (s : State) : Result := .next (s.writeDest dr (~~~ s.reg sr))

end Sys2Proof.Machine
end

