-- ==== Sys2Proof/Machine/Reserved.lean ====
section
/-! DEFINITION. RTI and RES (spec/45_reserved.md): both are a BadOpcode, always. -/

namespace Sys2Proof.Machine

/-- RTI (45 R150): `w[15:12]` is RTI's number. -/
def execRti (s : State) : Result := .next (s.raiseBadOpcode s.cfg.opcodeOf.rti)

/-- RES (45 R151): `w[15:12]` is RES's number. -/
def execRes (s : State) : Result := .next (s.raiseBadOpcode s.cfg.opcodeOf.res)

end Sys2Proof.Machine
end

