-- ==== Sys2Proof/Machine/Trap.lean ====
section
/-! DEFINITION. The TRAP instruction and its six routine rows (spec/44_trap.md R130 to R133): the instruction's own
step. The routine's steps are Machine/TrapEngine.lean's. -/

namespace Sys2Proof.Machine

/-- TRAP (44 R130, R141). -/
def execTrap (trapvect8 : Byte) (s : State) : Result := .next (s.enterTrap trapvect8)

/-- GETC (44 R130, R134). -/
def execGetc (s : State) : Result := .next (s.enterRoutine .getc)

/-- OUT (44 R130, R135). -/
def execOut (s : State) : Result := .next (s.enterRoutine .out)

/-- PUTS (44 R130, R136). -/
def execPuts (s : State) : Result := .next (s.enterRoutine .puts)

/-- IN (44 R130, R137). -/
def execIn (s : State) : Result := .next (s.enterRoutine .inChar)

/-- PUTSP (44 R130, R138). -/
def execPutsp (s : State) : Result := .next (s.enterRoutine .putsp)

/-- HALT (44 R130, R139). -/
def execHalt (s : State) : Result := .next (s.enterRoutine .halt)

end Sys2Proof.Machine
end

