-- ==== Sys2Proof/Machine/TrapEngine.lean ====
section
/-! DEFINITION. The trap routine engine (spec/44_trap.md R133 to R143): one engine step, one arm per routine state. No
arm writes `pc` or `cond` (R130, R142). -/

namespace Sys2Proof.Machine

/-- What GETC and IN write to R0 (44 R134, R137; 60 R163). -/
def charWord (c : Config) : Option Byte → Word
  | some b => zext8 b
  | none => c.noChar

/-- ACTIVE(GETC) (44 R134). -/
def trapGetc (s : State) : State := (s.conIn.2.setReg 0 (charWord s.cfg s.conIn.1)).leaveRoutine

/-- ACTIVE(OUT) (44 R135). -/
def trapOut (s : State) : State := (s.conOut (lowByte (s.reg 0))).leaveRoutine

/-- ACTIVE(PUTS, ptr): the test is on the whole cell (44 R136). -/
def trapPuts (ptr : Word) (s : State) : State :=
  if (s.trapRead ptr).1 = 0 then (s.trapRead ptr).2.leaveRoutine
  else ((s.trapRead ptr).2.conOut (lowByte (s.trapRead ptr).1)).setTe (.puts (ptr + 1))

/-- The byte of a cell PUTSP looks at (44 R138). -/
def halfByte (h : Half) (v : Word) : Byte :=
  match h with
  | .low => lowByte v
  | .high => highByte v

/-- The engine state after PUTSP has written a byte (44 R138). -/
def nextHalf (ptr : Word) : Half → TrapEngine
  | .low => .putsp ptr .high
  | .high => .putsp (ptr + 1) .low

/-- ACTIVE(PUTSP, ptr, half): stop at the first zero byte, low or high (44 R138). -/
def trapPutsp (ptr : Word) (h : Half) (s : State) : State :=
  if halfByte h (s.trapRead ptr).1 = 0 then (s.trapRead ptr).2.leaveRoutine
  else ((s.trapRead ptr).2.conOut (halfByte h (s.trapRead ptr).1)).setTe (nextHalf ptr h)

/-- IN once its prompt is out: read one character, and echo it in the next step if there is one (44 R137). -/
def trapInRead (s : State) : State :=
  match s.conIn.1 with
  | some c => (s.conIn.2.setReg 0 (zext8 c)).setTe (.inEcho c)
  | none => (s.conIn.2.setReg 0 s.cfg.noChar).leaveRoutine

/-- ACTIVE(IN_PROMPT, k) (44 R137). -/
def trapInPrompt (k : Nat) (s : State) : State :=
  match s.cfg.inPrompt[k]? with
  | some b => (s.conOut b).setTe (.inPrompt (k + 1))
  | none => trapInRead s

/-- ACTIVE(IN_ECHO, c) (44 R137). -/
def trapInEcho (c : Byte) (s : State) : State := (s.conOut c).leaveRoutine

/-- ACTIVE(HALT, k) (44 R139). -/
def trapHalt (k : Nat) (s : State) : State :=
  match s.cfg.haltNotice[k]? with
  | some b => (s.conOut b).setTe (.halt (k + 1))
  | none => s.leaveRoutine.setRun (.halted .haltTrap)

/-- `TrapStep()`: one arm, chosen by `te` (44 R133). -/
def trapStep (s : State) : State :=
  match s.te with
  | .idle => s
  | .getc => trapGetc s
  | .out => trapOut s
  | .puts ptr => trapPuts ptr s
  | .putsp ptr h => trapPutsp ptr h s
  | .inPrompt k => trapInPrompt k s
  | .inEcho c => trapInEcho c s
  | .halt k => trapHalt k s

end Sys2Proof.Machine
end

