-- ==== Sys2Proof/Machine/Cycle.lean ====
section
/-! DEFINITION. The execution cycle (spec/40_execution_cycle.md R80 to R84), which Machine/Step.lean's `step` runs. -/

namespace Sys2Proof.Machine

/-- Dispatch on what the decoder read; a number with no handler is a BadOpcode (40 R84, 60 R161). -/
def dispatch (d : Except DecodeError Instr) (s : State) : Result :=
  match d with
  | .ok i => exec i s
  | .error (.noHandler op) => .next (s.raiseBadOpcode op)

/-- One whole instruction: fetch, pc increment, decode, dispatch (40 R80). -/
def runInstruction (s : State) : Result := dispatch (decode s.cfg s.fetch.1) s.fetch.2

/-- `Step()`: one trap-routine step or one whole instruction; no step where none is enabled, so the state stays as it
is (40 R80; log 23). -/
def cycle (s : State) : Result :=
  if s.enabled then
    if s.te = .idle then runInstruction s else .next (trapStep s)
  else .next s

end Sys2Proof.Machine
end

