-- ==== Sys2Proof/Machine/Placing.lean ====
section
/-! DEFINITION. Placing one instruction where the next step fetches it, for `State.withFetchWord` (log 24). -/

namespace Sys2Proof.Machine

/-- The address to place at: `pc`, unless a fetch from there polls and overwrites the cell (40 R81); then the next. -/
def State.placeAddr (s : State) : Word := if s.pc = s.cfg.kbsrAddr then s.pc + 1 else s.pc

/-- `s`, started and running with no routine in progress, about to fetch `w`. -/
def State.placeWord (s : State) (w : Word) : State :=
  { s with started := true, run := .running, te := .idle, pc := s.placeAddr, mem := s.mem.write s.placeAddr w }

end Sys2Proof.Machine
end

