-- ==== Sys2Proof/Machine/Step.lean ====
section
/-! DEFINITION. The step, and the state that runs a given word next. -/

namespace Sys2Proof.Machine

/-- `Step()` (40 R80). -/
def step (s : State) : Host.Outcome State Fault Refusal := cycle s

/-- `s` with a word of the opcode table where `step` fetches its next instruction (log 24). -/
def State.withFetchWord (s : State) (nbits w : Nat) : State := s.placeWord (tableWord nbits w)

end Sys2Proof.Machine
end

