-- ==== Sys2Proof/Machine/HostInterface.lean ====
section
/-! DEFINITION. The host's side (spec/00_scope.md R10 to R15, spec/70_reset_and_hazards.md R191 to R198,
spec/60_exceptions.md R180 to R184): load, start, abort, what a `ConIn` is answered, the exit status, and a run as a
sequence of events of the core and the host. -/

namespace Sys2Proof.Machine

/-! ## Loading (70 R193 to R197) -/

/-- An image file: its bytes, or `none` if it is missing or cannot be read (70 R196). -/
abbrev ImageFile := Option (List Byte)

/-- The big-endian words of a file; `none` if a last word is cut in half (70 R194, R196). -/
def wordsOfBytes : List Byte → Option (List Word)
  | [] => some []
  | [_] => none
  | hi :: lo :: bs => (wordsOfBytes bs).map (fun ws => (hi ++ lo) :: ws)

/-- The words, stored contiguously from `a` (70 R195). -/
def storeWords : List Word → Word → Mem → Mem
  | [], _, m => m
  | w :: ws, a, m => storeWords ws (a + 1) (m.write a w)

/-- `load(origin, words)`: plain stores from the origin, then the entry pc (00 R10; 70 R195, R197); an image that would
pass 0xFFFF is a LoadError (70 R196, D14). -/
def State.loadWords (s : State) (origin : Word) (ws : List Word) : Result :=
  if ws.length > 65536 - origin.toNat then .fault (.loadError .pastEnd)
  else .next { s with mem := storeWords ws origin s.mem, pc := origin }

/-- Load one image file, before the start only (00 R10; 70 R193 to R197). -/
def State.loadImage (s : State) (f : ImageFile) : Result :=
  if s.started then .refused .hostCallUnavailable
  else match f with
  | none => .fault (.loadError .missingOrUnreadable)
  | some [] => .fault (.loadError .noOrigin)
  | some [_] => .fault (.loadError .noOrigin)
  | some (hi :: lo :: bs) =>
    match wordsOfBytes bs with
    | none => .fault (.loadError .oddLength)
    | some ws => s.loadWords (hi ++ lo) ws

/-- `start()`, once (00 R11). -/
def State.start (s : State) : Result :=
  if s.started then .refused .hostCallUnavailable else .next { s with started := true }

/-- `abort()`: only `run` changes (00 R15, 60 R181). -/
def State.abort (s : State) : Result :=
  if s.enabled then .next (s.setRun .aborted) else .refused .hostCallUnavailable

/-- The host fixes one more answer to a later `ConIn` (00 R14; log 6). -/
def State.answer (s : State) (a : Option Byte) : State := { s with answers := s.answers ++ [a] }

/-! ## Runs (70 R191) -/

/-- What can happen next: a step of the core or an act of the host. -/
inductive Event where
  | core
  | load (f : ImageFile)
  | start
  | abort
  | answer (a : Option Byte)
  deriving DecidableEq, Repr

/-- One event. -/
def act (e : Event) (s : State) : Result :=
  match e with
  | .core => step s
  | .load f => s.loadImage f
  | .start => s.start
  | .abort => s.abort
  | .answer a => .next (s.answer a)

/-- Events in order, up to the first fault (LoadError) or refusal (a host call that is not available). -/
def runEvents : List Event → State → Result
  | [], s => .next s
  | e :: es, s =>
    match act e s with
    | .next t => runEvents es t
    | .fault r => .fault r
    | .refused r => .refused r

/-- Load one or more images in order, then start (70 R191, R193). -/
def State.boot (s : State) (first : ImageFile) (more : List ImageFile) : Result :=
  runEvents ((first :: more).map .load ++ [.start]) s

/-- `n` steps of the core. Every step answers a next state (no instruction faults or is refused). -/
def steps (n : Nat) (s : State) : Result := runEvents (List.replicate n .core) s

/-! ## Status (00 R12, 60 R183) -/

/-- What the spec says of the process's exit status. -/
inductive ExitStatus where
  | code (n : Nat)   -- this number
  | nonZero          -- a number the spec does not give, but not zero
  | unstated         -- the spec gives nothing
  | notEnded         -- the run has not ended
  deriving DecidableEq, Repr

/-- The exit status of a run in state `s` (60 R183): zero after HALT, `BADOP_STATUS` after a BadOpcode; after an abort it
is the host's own, and after BAD_TRAP the spec gives none (log 14). -/
def State.exitStatus (s : State) : ExitStatus :=
  match s.run with
  | .running => .notEnded
  | .halted .haltTrap => .code 0
  | .halted (.badOpcode _ _) => .code s.cfg.badopStatus
  | .halted (.badTrap _ _) => .unstated
  | .aborted => .unstated

/-- The exit status of a launch: non-zero after a LoadError (60 R162, R183). -/
def launchStatus : Result → ExitStatus
  | .next s => s.exitStatus
  | .fault (.loadError _) => .nonZero
  | .refused _ => .unstated

end Sys2Proof.Machine
end

