-- ==== Sys2Proof/Safety.lean ====
section
/-! DEFINITION. The terms claims use: what an instruction leaves unchanged, when the core is about to run an
instruction, and the invariant of the machine. -/

namespace Sys2Proof.Machine

/-! ## Frames -/

/-- Every general register but those of `rs` is the same in `t` as in `s`. -/
def SameRegsBut (rs : List Reg) (s t : State) : Prop := ∀ r : Reg, r ∉ rs → t.reg r = s.reg r

/-- Every cell of memory but those at the addresses of `as` reads the same in `t` as in `s`. -/
def SameCellsBut (as : List Word) (s t : State) : Prop := ∀ a : Word, a ∉ as → t.cell a = s.cell a

/-- No `ConIn` and no `ConOut` took place between `s` and `t`. -/
def SameConsole (s t : State) : Prop := t.answers = s.answers ∧ t.draws = s.draws ∧ t.out = s.out

/-- The run state, the trap engine, the start and the parameters are the same in `t` as in `s`. -/
def SameControl (s t : State) : Prop :=
  t.run = s.run ∧ t.te = s.te ∧ t.started = s.started ∧ t.cfg = s.cfg

/-! ## What the core is about to do -/

/-- The core is enabled with no routine in progress: its next step is an instruction (40 R80). -/
def AtInstruction (s : State) : Prop := s.enabled = true ∧ s.te = .idle

/-- The core is enabled with the routine state `t` in progress: its next step is an engine step (44 R133). -/
def InRoutine (t : TrapEngine) (s : State) : Prop := s.enabled = true ∧ s.te = t

/-- `run` is HALTED (10 R27). -/
def IsHalted (s : State) : Prop := ∃ r, s.run = .halted r

/-! ## What an instruction reads and writes -/

/-- The DR of an instruction that sets the flags (10 R24): ADD, AND, NOT, LD, LDI, LDR, LEA. -/
def destOf : Instr → Option Reg
  | .addReg dr _ _ | .addImm dr _ _ | .andReg dr _ _ | .andImm dr _ _ | .notReg dr _ => some dr
  | .ld dr _ | .ldi dr _ | .ldr dr _ _ | .lea dr _ => some dr
  | .br _ _ | .jmp _ | .ret | .jsr _ | .jsrr _ | .st _ _ | .sti _ _ | .str _ _ _ => none
  | .trap _ | .getc | .out | .puts | .inChar | .putsp | .halt | .rti | .res => none

/-- The general registers an instruction's own step may write (10 R21). -/
def writtenRegs : Instr → List Reg
  | .addReg dr _ _ | .addImm dr _ _ | .andReg dr _ _ | .andImm dr _ _ | .notReg dr _ => [dr]
  | .ld dr _ | .ldi dr _ | .ldr dr _ _ | .lea dr _ => [dr]
  | .br _ _ | .jmp _ | .ret | .st _ _ | .sti _ _ | .str _ _ _ | .rti | .res => []
  | .jsr _ | .jsrr _ | .trap _ | .getc | .out | .puts | .inChar | .putsp | .halt => [7]

/-- The general registers an instruction may read (10 R21). -/
def readRegs : Instr → List Reg
  | .addReg _ sr1 sr2 | .andReg _ sr1 sr2 => [sr1, sr2]
  | .addImm _ sr1 _ | .andImm _ sr1 _ => [sr1]
  | .notReg _ sr => [sr]
  | .jmp b | .jsrr b => [b]
  | .ret => [7]
  | .ldr _ b _ => [b]
  | .st sr _ | .sti sr _ => [sr]
  | .str sr b _ => [sr, b]
  | .out | .puts | .putsp | .trap _ => [0]
  | .br _ _ | .jsr _ | .ld _ _ | .ldi _ _ | .lea _ _ | .getc | .inChar | .halt | .rti | .res => []

/-- The addresses an instruction reads with the polling read, in order (43 R110 to R115). -/
def readAddrs (i : Instr) (s : State) : List Word :=
  match i with
  | .ld _ off => [pcRelative s.pc off]
  | .ldi _ off => [pcRelative s.pc off, (s.memRead (pcRelative s.pc off)).1]
  | .ldr _ b off => [baseOffset (s.reg b) off]
  | .sti _ off => [pcRelative s.pc off]
  | .addReg _ _ _ | .addImm _ _ _ | .andReg _ _ _ | .andImm _ _ _ | .notReg _ _ => []
  | .br _ _ | .jmp _ | .ret | .jsr _ | .jsrr _ | .lea _ _ | .st _ _ | .str _ _ _ => []
  | .trap _ | .getc | .out | .puts | .inChar | .putsp | .halt | .rti | .res => []

/-- The address an instruction stores to and the value it stores (43 R114 to R116). -/
def storeOf (i : Instr) (s : State) : Option (Word × Word) :=
  match i with
  | .st sr off => some (pcRelative s.pc off, s.reg sr)
  | .sti sr off => some ((s.memRead (pcRelative s.pc off)).1, s.reg sr)
  | .str sr b off => some (baseOffset (s.reg b) off, s.reg sr)
  | .addReg _ _ _ | .addImm _ _ _ | .andReg _ _ _ | .andImm _ _ _ | .notReg _ _ => none
  | .br _ _ | .jmp _ | .ret | .jsr _ | .jsrr _ | .ld _ _ | .ldi _ _ | .ldr _ _ _ | .lea _ _ => none
  | .trap _ | .getc | .out | .puts | .inChar | .putsp | .halt | .rti | .res => none

/-! ## The invariant -/

/-- `cond` holds no flag or exactly one (10 R23). -/
abbrev State.condLegal (s : State) : Prop := s.cond ∈ [0b000#3, 0b001#3, 0b010#3, 0b100#3]

/-- The engine's byte counts stay within the texts they count (10 R29, 44 R133). -/
abbrev State.teBounded (s : State) : Prop :=
  match s.te with
  | .inPrompt k => k ≤ s.cfg.inPrompt.length
  | .halt k => k ≤ s.cfg.haltNotice.length
  | _ => True

/-- While a routine is in progress R7 holds the return address, which is `pc` (60 R167, R168). -/
abbrev State.teReturns (s : State) : Prop := s.te ≠ .idle → s.reg 7 = s.pc

/-- A halt is precise: its reason fits the parameters and the pc, and no routine is left in progress (40 R86; 44 R139,
R141; 60 R161). -/
abbrev State.haltPrecise (s : State) : Prop :=
  match s.run with
  | .running | .aborted => True
  | .halted .haltTrap => s.te = .idle ∧ s.reg 7 = s.pc
  | .halted (.badOpcode op addr) =>
    s.te = .idle ∧ s.pc = addr + 1 ∧ (op = s.cfg.opcodeOf.rti ∨ op = s.cfg.opcodeOf.res)
  | .halted (.badTrap vec addr) =>
    s.te = .idle ∧ s.pc = addr + 1 ∧ s.reg 7 = s.pc ∧ s.cfg.unknownTrap = .fault ∧
      trapTable s.cfg.trapvecOf vec = none

/-- Before the start only loads have happened: every register and flag as reset leaves it (70 R190, R198). -/
abbrev State.freshUntilStart (s : State) : Prop :=
  s.started = false → s.x = State.reset.x ∧ s.cond = 0 ∧ s.run = .running ∧ s.te = .idle ∧ s.out = []

/-- The invariant: the parameters are admissible, memory is in canonical form, `cond` is legal, and the engine, the run
state and the time before the start are as the spec says. -/
def Inv (s : State) : Prop :=
  s.cfg.wf ∧ s.mem.wf ∧ s.condLegal ∧ s.teBounded ∧ s.teReturns ∧ s.haltPrecise ∧ s.freshUntilStart

end Sys2Proof.Machine
end

