-- ==== Sys2Proof/Certificates/Slice0/Obligations.lean ====
section
/-! DEFINITION. The statements for the provers. Each names the rule of spec/ it formalises. `s` is, in a statement about
`exec`, the state after the fetch: its `pc` is the incremented pc (spec/40_execution_cycle.md R82). A statement holds for
every value of the parameters of spec/00_scope.md R7 (`s.cfg`, or `c` with `c.wf`) unless it names `defaultConfig`. -/

open Sys2Proof Sys2Proof.Machine

/-! ## Encoding -/

/-- 30 R62, R65, R69: the decoder reads back every well-formed instruction, at every value of its fields, for every
admissible numbering. What the ignored bits of an encoded word are is the model's choice (log 22). -/
def Obligations.DecodeEncodeRoundTrip : Prop :=
  ∀ (c : Config) (i : Instr), c.wf → i.wf c = true → decode c (encode c i) = .ok i

/-- 30 R62, R66: the instruction a word decodes to says every bit of the word it reads, and any value of the other
bits decodes as the all-zero value does. That the other bits are ignored is the spec's decision D10 (log 10). -/
def Obligations.DecodeKeepsReadBitsAndIgnoresTheRest : Prop :=
  ∀ (c : Config) (w : Word) (i : Instr), decode c w = .ok i →
    encode c i &&& usedMask i = w &&& usedMask i ∧
    ∀ v : Word, v &&& usedMask i = w &&& usedMask i → decode c v = .ok i

/-- 30 R67, R70: every word decodes, to a well-formed instruction; under the default numbering the words whose opcode
is 0x8 are RTI and those whose opcode is 0xD are RES, whatever their other bits, and no other word is either.
Totality is the spec's own inference (R67, R70); the default numbers are its D1 (log 1). -/
def Obligations.EveryWordDecodes : Prop :=
  (∀ (c : Config) (w : Word), c.wf → ∃ i, decode c w = .ok i ∧ i.wf c = true) ∧
  (∀ w : Word, decode defaultConfig w = .ok .rti ↔ w &&& 0xF000 = 0x8000) ∧
  (∀ w : Word, decode defaultConfig w = .ok .res ↔ w &&& 0xF000 = 0xD000)

/-- spec/opcode_table.json, 30 R62 to R65: every word of a row decodes to the row's instruction, its fields in the
row's places (a word of JMP or TRAP that no refining row takes). The default numbers are the spec's, from general
knowledge (D1, D3; logs 1, 3); that RET and the routines have constructors of their own is the model's choice (log
27). -/
def Obligations.DecodeFollowsOpcodeTable : Prop :=
  ∀ w : Word,
    let dec := decode defaultConfig w
    (w &&& 0xF020 = 0x1000 → dec = .ok (.addReg (bits w 9 3) (bits w 6 3) (bits w 0 3))) ∧
    (w &&& 0xF020 = 0x1020 → dec = .ok (.addImm (bits w 9 3) (bits w 6 3) (bits w 0 5))) ∧
    (w &&& 0xF020 = 0x5000 → dec = .ok (.andReg (bits w 9 3) (bits w 6 3) (bits w 0 3))) ∧
    (w &&& 0xF020 = 0x5020 → dec = .ok (.andImm (bits w 9 3) (bits w 6 3) (bits w 0 5))) ∧
    (w &&& 0xF000 = 0x9000 → dec = .ok (.notReg (bits w 9 3) (bits w 6 3))) ∧
    (w &&& 0xF000 = 0x0000 → dec = .ok (.br (bits w 9 3) (bits w 0 9))) ∧
    (w &&& 0xF000 = 0xC000 → w &&& 0xF1C0 ≠ 0xC1C0 → dec = .ok (.jmp (bits w 6 3))) ∧
    (w &&& 0xF1C0 = 0xC1C0 → dec = .ok .ret) ∧
    (w &&& 0xF800 = 0x4800 → dec = .ok (.jsr (bits w 0 11))) ∧
    (w &&& 0xF800 = 0x4000 → dec = .ok (.jsrr (bits w 6 3))) ∧
    (w &&& 0xF000 = 0x2000 → dec = .ok (.ld (bits w 9 3) (bits w 0 9))) ∧
    (w &&& 0xF000 = 0xA000 → dec = .ok (.ldi (bits w 9 3) (bits w 0 9))) ∧
    (w &&& 0xF000 = 0x6000 → dec = .ok (.ldr (bits w 9 3) (bits w 6 3) (bits w 0 6))) ∧
    (w &&& 0xF000 = 0xE000 → dec = .ok (.lea (bits w 9 3) (bits w 0 9))) ∧
    (w &&& 0xF000 = 0x3000 → dec = .ok (.st (bits w 9 3) (bits w 0 9))) ∧
    (w &&& 0xF000 = 0xB000 → dec = .ok (.sti (bits w 9 3) (bits w 0 9))) ∧
    (w &&& 0xF000 = 0x7000 → dec = .ok (.str (bits w 9 3) (bits w 6 3) (bits w 0 6))) ∧
    (w &&& 0xF000 = 0xF000 → bits w 0 8 ∉ [0x20#8, 0x21#8, 0x22#8, 0x23#8, 0x24#8, 0x25#8] →
      dec = .ok (.trap (bits w 0 8))) ∧
    (w &&& 0xF0FF = 0xF020 → dec = .ok .getc) ∧
    (w &&& 0xF0FF = 0xF021 → dec = .ok .out) ∧
    (w &&& 0xF0FF = 0xF022 → dec = .ok .puts) ∧
    (w &&& 0xF0FF = 0xF023 → dec = .ok .inChar) ∧
    (w &&& 0xF0FF = 0xF024 → dec = .ok .putsp) ∧
    (w &&& 0xF0FF = 0xF025 → dec = .ok .halt) ∧
    (w &&& 0xF000 = 0x8000 → dec = .ok .rti) ∧
    (w &&& 0xF000 = 0xD000 → dec = .ok .res)

/-- Words written out bit by bit from 30 R62, one for each family (the examples of 41 to 45). The numbers are the
spec's defaults (D1, D3; logs 1, 3). -/
def Obligations.WrittenWordsDecode : Prop :=
  decode defaultConfig 0b0001_000_001_1_11110 = .ok (.addImm 0 1 0b11110) ∧
  decode defaultConfig 0b0000_010_000000010 = .ok (.br 0b010 2) ∧
  decode defaultConfig 0b1010_011_000000101 = .ok (.ldi 3 5) ∧
  decode defaultConfig 0b0111_001_110_000011 = .ok (.str 1 6 3) ∧
  decode defaultConfig 0b1111_0000_00100001 = .ok .out ∧
  decode defaultConfig 0b1000_000000000000 = .ok .rti

/-! ## The execution cycle -/

/-- 40 R80 to R84: no step unless started and RUNNING; an engine step while a routine is in progress; else fetch with
the polling read, pc + 1, decode, dispatch, for every word that decodes (every word does where the parameters are
admissible; log 30). That a step not taken answers the same state is the model's choice (log 23); that a routine runs
in engine steps of its own is the spec's decision D18 (44 R133; log 17). -/
def Obligations.StepRunsTheDecodedInstruction : Prop :=
  ∀ s : State,
    (¬(s.started = true ∧ s.run = .running) → step s = .next s) ∧
    (s.started = true → s.run = .running → s.te ≠ .idle → step s = .next (trapStep s)) ∧
    (s.started = true → s.run = .running → s.te = .idle → ∀ i : Instr,
      decode s.cfg (s.memRead s.pc).1 = .ok i →
      step s = exec i ((s.memRead s.pc).2.setPc (s.pc + 1)))

/-- 10 R27, 60 R176: HALTED and ABORTED are terminal, for the core and for the host; and however long the core is
stepped, nothing changes. That a step not taken answers the same state is the model's choice (log 23); ABORTED is the
spec's decision D19 (log 18). -/
def Obligations.StoppedRunStaysStopped : Prop :=
  ∀ s : State, s.run ≠ .running →
    (∀ n : Nat, steps n s = .next s) ∧
    ∀ (es : List Event) (t : State), runEvents es s = .next t → t.run = s.run

/-- 10 R27, 40 R87: a step leaves RUNNING only at the end of the HALT routine, at RTI or RES, or at a TRAP with an
unlisted vector where `UNKNOWN_TRAP = fault`. `UNKNOWN_TRAP` is the spec's decision D8 (log 8). -/
def Obligations.OnlyTheseStepsHalt : Prop :=
  ∀ s t : State, s.cfg.wf → s.run = .running → step s = .next t → t.run ≠ .running →
    (t.run = .halted .haltTrap ∧ ∃ k, s.te = .halt k ∧ s.cfg.haltNotice.length ≤ k) ∨
    (s.te = .idle ∧ ∃ i, decode s.cfg (s.memRead s.pc).1 = .ok i ∧
      ((i = .rti ∧ t.run = .halted (.badOpcode s.cfg.opcodeOf.rti s.pc)) ∨
       (i = .res ∧ t.run = .halted (.badOpcode s.cfg.opcodeOf.res s.pc)) ∨
       (∃ v, i = .trap v ∧ s.cfg.unknownTrap = .fault ∧ t.run = .halted (.badTrap v s.pc))))

/-! ## Operate (spec/41_operate.md) -/

/-- 41 R90: two's-complement widening of an N-bit field, 1 ≤ N ≤ 16. -/
def Obligations.SignExtensionWidens : Prop :=
  ∀ (n : Nat) (v : BitVec n), 1 ≤ n → n ≤ 16 →
    sext v = (if v.getLsbD (n - 1) = true then v.setWidth 16 ||| (0xFFFF#16 <<< n) else v.setWidth 16) ∧
    (sext v).toInt = v.toInt

/-- 41 R91: `setcc(i)` writes exactly the flag of the value in `x[i]`, and nothing else; and every instruction that
has a destination register calls it last: doing so again changes nothing. Which bit each flag is (0b010, 0b100, 0b001
in the clause for `defaultConfig`) is the default of `COND_BITS`, the spec's decision D2 from general knowledge (log
2). -/
def Obligations.SetccWritesTheOneFlag : Prop :=
  (∀ (i : Instr) (s t : State) (dr : Reg), destOf i = some dr → exec i s = .next t → t.setcc dr = t) ∧
  ∀ (s : State) (i : Reg),
    ((s.reg i).toInt = 0 → (s.setcc i).cond = flagBit s.cfg.condZ) ∧
    ((s.reg i).toInt < 0 → (s.setcc i).cond = flagBit s.cfg.condN) ∧
    (0 < (s.reg i).toInt → (s.setcc i).cond = flagBit s.cfg.condP) ∧
    (s.cfg = defaultConfig →
      (s.setcc i).cond = if (s.reg i).toInt = 0 then 0b010 else if (s.reg i).toInt < 0 then 0b100 else 0b001) ∧
    SameRegsBut [] s (s.setcc i) ∧ (s.setcc i).pc = s.pc ∧ SameCellsBut [] s (s.setcc i) ∧
    SameConsole s (s.setcc i) ∧ SameControl s (s.setcc i)

/-- 41 R92, R93: ADD in both modes: its words, and for every state the sum modulo 65536 in DR, the flags of it, and
nothing else changed. -/
def Obligations.AddBothModes : Prop :=
  ((∀ (c : Config) (w : Word), c.wf → opcodeBits w = c.opcodeOf.add → bits w 5 1 = 0 →
       decode c w = .ok (.addReg (bits w 9 3) (bits w 6 3) (bits w 0 3))) ∧
     ∀ (dr sr1 sr2 : Reg) (s : State), ∃ t, exec (.addReg dr sr1 sr2) s = .next t ∧
       (t.reg dr).toNat = ((s.reg sr1).toNat + (s.reg sr2).toNat) % 65536 ∧ t.cond = flagsOf s.cfg (t.reg dr) ∧
       SameRegsBut [dr] s t ∧ t.pc = s.pc ∧ SameCellsBut [] s t ∧ SameConsole s t ∧ SameControl s t) ∧
  ((∀ (c : Config) (w : Word), c.wf → opcodeBits w = c.opcodeOf.add → bits w 5 1 = 1 →
       decode c w = .ok (.addImm (bits w 9 3) (bits w 6 3) (bits w 0 5))) ∧
     ∀ (dr sr1 : Reg) (imm5 : BitVec 5) (s : State), ∃ t, exec (.addImm dr sr1 imm5) s = .next t ∧
       (t.reg dr).toNat = ((s.reg sr1).toNat + (sext imm5).toNat) % 65536 ∧ t.cond = flagsOf s.cfg (t.reg dr) ∧
       SameRegsBut [dr] s t ∧ t.pc = s.pc ∧ SameCellsBut [] s t ∧ SameConsole s t ∧ SameControl s t)

/-- 41 R94, R95: AND in both modes, bit by bit. -/
def Obligations.AndBothModes : Prop :=
  ((∀ (c : Config) (w : Word), c.wf → opcodeBits w = c.opcodeOf.and → bits w 5 1 = 0 →
       decode c w = .ok (.andReg (bits w 9 3) (bits w 6 3) (bits w 0 3))) ∧
     ∀ (dr sr1 sr2 : Reg) (s : State), ∃ t, exec (.andReg dr sr1 sr2) s = .next t ∧
       (∀ k : Nat, (t.reg dr).getLsbD k = ((s.reg sr1).getLsbD k && (s.reg sr2).getLsbD k)) ∧
       t.cond = flagsOf s.cfg (t.reg dr) ∧
       SameRegsBut [dr] s t ∧ t.pc = s.pc ∧ SameCellsBut [] s t ∧ SameConsole s t ∧ SameControl s t) ∧
  ((∀ (c : Config) (w : Word), c.wf → opcodeBits w = c.opcodeOf.and → bits w 5 1 = 1 →
       decode c w = .ok (.andImm (bits w 9 3) (bits w 6 3) (bits w 0 5))) ∧
     ∀ (dr sr1 : Reg) (imm5 : BitVec 5) (s : State), ∃ t, exec (.andImm dr sr1 imm5) s = .next t ∧
       (∀ k : Nat, (t.reg dr).getLsbD k = ((s.reg sr1).getLsbD k && (sext imm5).getLsbD k)) ∧
       t.cond = flagsOf s.cfg (t.reg dr) ∧
       SameRegsBut [dr] s t ∧ t.pc = s.pc ∧ SameCellsBut [] s t ∧ SameConsole s t ∧ SameControl s t)

/-- 41 R96: NOT, bit by bit. -/
def Obligations.NotComplements : Prop :=
  (∀ (c : Config) (w : Word), c.wf → opcodeBits w = c.opcodeOf.not →
    decode c w = .ok (.notReg (bits w 9 3) (bits w 6 3))) ∧
  ∀ (dr sr : Reg) (s : State), ∃ t, exec (.notReg dr sr) s = .next t ∧
    (∀ k : Nat, k < 16 → (t.reg dr).getLsbD k = !(s.reg sr).getLsbD k) ∧ t.cond = flagsOf s.cfg (t.reg dr) ∧
    SameRegsBut [dr] s t ∧ t.pc = s.pc ∧ SameCellsBut [] s t ∧ SameConsole s t ∧ SameControl s t

/-! ## Control transfer (spec/42_control.md) -/

/-- 42 R100: BR. -/
def Obligations.BranchOnFlags : Prop :=
  (∀ (c : Config) (w : Word), c.wf → opcodeBits w = c.opcodeOf.br →
    decode c w = .ok (.br (bits w 9 3) (bits w 0 9))) ∧
  ∀ (nzp : BitVec 3) (off : BitVec 9) (s : State), ∃ t, exec (.br nzp off) s = .next t ∧
    (nzp &&& s.cond ≠ 0 → t.pc = s.pc + sext off) ∧ (nzp &&& s.cond = 0 → t.pc = s.pc) ∧
    t.cond = s.cond ∧ SameRegsBut [] s t ∧ SameCellsBut [] s t ∧ SameConsole s t ∧ SameControl s t

/-- 42 R101: JMP, and RET as JMP R7. -/
def Obligations.JumpThroughRegister : Prop :=
  (∀ (c : Config) (w : Word), c.wf → opcodeBits w = c.opcodeOf.jmp →
    decode c w = .ok (if bits w 6 3 = 7 then .ret else .jmp (bits w 6 3))) ∧
  (∀ (b : Reg) (s : State), ∃ t, exec (.jmp b) s = .next t ∧ t.pc = s.reg b ∧
    t.cond = s.cond ∧ SameRegsBut [] s t ∧ SameCellsBut [] s t ∧ SameConsole s t ∧ SameControl s t) ∧
  ∀ s : State, ∃ t, exec .ret s = .next t ∧ t.pc = s.reg 7 ∧
    t.cond = s.cond ∧ SameRegsBut [] s t ∧ SameCellsBut [] s t ∧ SameConsole s t ∧ SameControl s t

/-- 42 R102: JSR. -/
def Obligations.JsrCalls : Prop :=
  (∀ (c : Config) (w : Word), c.wf → opcodeBits w = c.opcodeOf.jsr → bits w 11 1 = 1 →
    decode c w = .ok (.jsr (bits w 0 11))) ∧
  ∀ (off : BitVec 11) (s : State), ∃ t, exec (.jsr off) s = .next t ∧
    t.reg 7 = s.pc ∧ t.pc = s.pc + sext off ∧
    t.cond = s.cond ∧ SameRegsBut [7] s t ∧ SameCellsBut [] s t ∧ SameConsole s t ∧ SameControl s t

/-- 42 R103: JSRR; with BaseR = R7 the target is the new R7. -/
def Obligations.JsrrCalls : Prop :=
  (∀ (c : Config) (w : Word), c.wf → opcodeBits w = c.opcodeOf.jsr → bits w 11 1 = 0 →
    decode c w = .ok (.jsrr (bits w 6 3))) ∧
  ∀ (b : Reg) (s : State), ∃ t, exec (.jsrr b) s = .next t ∧
    t.reg 7 = s.pc ∧ (b = 7 → t.pc = s.pc) ∧ (b ≠ 7 → t.pc = s.reg b) ∧
    t.cond = s.cond ∧ SameRegsBut [7] s t ∧ SameCellsBut [] s t ∧ SameConsole s t ∧ SameControl s t

/-- 42 R104: JSR, JSRR and every TRAP write the return address to R7, and `JMP R7`, run in any state that has kept
R7, returns to the instruction after the call site. -/
def Obligations.CallThenReturn : Prop :=
  ∀ (i : Instr) (s t : State), 7 ∈ writtenRegs i → destOf i = none → exec i s = .next t →
    t.reg 7 = s.pc ∧ ∀ u : State, u.reg 7 = t.reg 7 → ∃ v, exec .ret u = .next v ∧ v.pc = s.pc

/-! ## Memory (spec/20_memory.md) -/

/-- 20 R45, R46, R48: only a read of KBSR has a side effect; any other read is the cell and changes nothing; a read
of KBSR gives the cell's value after a poll, which refreshes KBSR and KBDR by the host's answer to one `ConIn`. What
a poll writes and that it consumes the character are the spec's decisions D5, D6 (logs 5, 6). -/
def Obligations.PollingReadRefreshesThePair : Prop :=
  (∀ (s : State) (a : Word),
       (a ≠ s.cfg.kbsrAddr → s.memRead a = (s.cell a, s)) ∧
       (a = s.cfg.kbsrAddr → s.memRead a = (s.kbPoll.cell a, s.kbPoll))) ∧
  (∀ s : State, s.cfg.kbsrAddr ≠ s.cfg.kbdrAddr →
       (∀ c, s.conIn.1 = some c →
         s.kbPoll.cell s.cfg.kbsrAddr = s.cfg.kbsrReady ∧ s.kbPoll.cell s.cfg.kbdrAddr = c.setWidth 16) ∧
       (s.conIn.1 = none →
         s.kbPoll.cell s.cfg.kbsrAddr = s.cfg.kbsrIdle ∧ s.kbPoll.cell s.cfg.kbdrAddr = s.cell s.cfg.kbdrAddr) ∧
       SameCellsBut [s.cfg.kbsrAddr, s.cfg.kbdrAddr] s s.kbPoll ∧ SameRegsBut [] s s.kbPoll ∧ s.kbPoll.pc = s.pc ∧
       s.kbPoll.cond = s.cond ∧ SameControl s s.kbPoll ∧ SameConsole s.conIn.2 s.kbPoll)

/-- 00 R14: `ConIn` gives the next answer the host has fixed, and consumes it; it changes nothing else. Where the
host has fixed none, the answer is free (log 6) and nothing is said of it. -/
def Obligations.ConInTakesTheNextAnswer : Prop :=
  ∀ s : State,
    (∀ a rest, s.answers = a :: rest → s.conIn.1 = a ∧ s.conIn.2.answers = rest ∧ s.conIn.2.draws = s.draws) ∧
    (s.answers = [] → s.conIn.2.answers = [] ∧ s.conIn.2.draws = s.draws + 1) ∧
    SameRegsBut [] s s.conIn.2 ∧ s.conIn.2.pc = s.pc ∧ s.conIn.2.cond = s.cond ∧ SameCellsBut [] s s.conIn.2 ∧
    s.conIn.2.out = s.out ∧ SameControl s s.conIn.2

/-- 20 R47: `MemWrite` stores the value and has no side effect, at KBSR and KBDR too. -/
def Obligations.MemWriteStoresAndNothingElse : Prop :=
  ∀ (s : State) (a v : Word),
    (s.memWrite a v).cell a = v ∧ SameCellsBut [a] s (s.memWrite a v) ∧ SameRegsBut [] s (s.memWrite a v) ∧
    (s.memWrite a v).pc = s.pc ∧ (s.memWrite a v).cond = s.cond ∧ SameConsole s (s.memWrite a v) ∧
    SameControl s (s.memWrite a v)

/-- 20 R41, R47, R48, 43: over all instructions, every cell is unchanged but the one the instruction stores to and,
where it reads KBSR, the two keyboard cells. That no other read writes is the spec's own inference (R48). -/
def Obligations.MemoryFrameOfEveryInstruction : Prop :=
  ∀ (i : Instr) (s t : State), exec i s = .next t → ∀ a : Word,
    (∀ ea v, storeOf i s = some (ea, v) → a ≠ ea) →
    (s.cfg.kbsrAddr ∈ readAddrs i s → a ≠ s.cfg.kbsrAddr ∧ a ≠ s.cfg.kbdrAddr) →
    t.cell a = s.cell a

/-- 20 R54: a store is seen by the very next fetch of that cell; a fetch from KBSR polls first. The spec's own
inference from R45, R52 and R81. -/
def Obligations.StoreSeenByNextFetch : Prop :=
  ∀ (i : Instr) (s t : State) (ea v : Word), exec i s = .next t → storeOf i s = some (ea, v) →
    t.cell ea = v ∧ (t.pc = ea → ea ≠ t.cfg.kbsrAddr → t.fetch.1 = v) ∧
    (t.pc = t.cfg.kbsrAddr → t.fetch = (t.kbPoll.cell t.cfg.kbsrAddr, t.kbPoll.setPc (t.pc + 1)))

/-! ## Loads and stores (spec/43_load_store.md) -/

/-- 43 R110: LD. -/
def Obligations.LoadPcRelative : Prop :=
  (∀ (c : Config) (w : Word), c.wf → opcodeBits w = c.opcodeOf.ld →
    decode c w = .ok (.ld (bits w 9 3) (bits w 0 9))) ∧
  ∀ (dr : Reg) (off : BitVec 9) (s : State),
    let rd := s.memRead (s.pc + sext off)
    ∃ t, exec (.ld dr off) s = .next t ∧ t.reg dr = rd.1 ∧ t.cond = flagsOf s.cfg rd.1 ∧
      SameRegsBut [dr] s t ∧ t.pc = s.pc ∧ SameCellsBut [] rd.2 t ∧ SameConsole rd.2 t ∧ SameControl s t

/-- 43 R111: LDI, two reads in order. -/
def Obligations.LoadIndirect : Prop :=
  (∀ (c : Config) (w : Word), c.wf → opcodeBits w = c.opcodeOf.ldi →
    decode c w = .ok (.ldi (bits w 9 3) (bits w 0 9))) ∧
  ∀ (dr : Reg) (off : BitVec 9) (s : State),
    let ptr := s.memRead (s.pc + sext off)
    let rd := ptr.2.memRead ptr.1
    ∃ t, exec (.ldi dr off) s = .next t ∧ t.reg dr = rd.1 ∧ t.cond = flagsOf s.cfg rd.1 ∧
      SameRegsBut [dr] s t ∧ t.pc = s.pc ∧ SameCellsBut [] rd.2 t ∧ SameConsole rd.2 t ∧ SameControl s t

/-- 43 R112: LDR. -/
def Obligations.LoadBaseOffset : Prop :=
  (∀ (c : Config) (w : Word), c.wf → opcodeBits w = c.opcodeOf.ldr →
    decode c w = .ok (.ldr (bits w 9 3) (bits w 6 3) (bits w 0 6))) ∧
  ∀ (dr b : Reg) (off : BitVec 6) (s : State),
    let rd := s.memRead (s.reg b + sext off)
    ∃ t, exec (.ldr dr b off) s = .next t ∧ t.reg dr = rd.1 ∧ t.cond = flagsOf s.cfg rd.1 ∧
      SameRegsBut [dr] s t ∧ t.pc = s.pc ∧ SameCellsBut [] rd.2 t ∧ SameConsole rd.2 t ∧ SameControl s t

/-- 43 R113: LEA, the address only, no memory access. -/
def Obligations.LoadEffectiveAddress : Prop :=
  (∀ (c : Config) (w : Word), c.wf → opcodeBits w = c.opcodeOf.lea →
    decode c w = .ok (.lea (bits w 9 3) (bits w 0 9))) ∧
  ∀ (dr : Reg) (off : BitVec 9) (s : State), ∃ t, exec (.lea dr off) s = .next t ∧
    t.reg dr = s.pc + sext off ∧ t.cond = flagsOf s.cfg (s.pc + sext off) ∧
    SameRegsBut [dr] s t ∧ t.pc = s.pc ∧ SameCellsBut [] s t ∧ SameConsole s t ∧ SameControl s t

/-- 43 R114: ST. -/
def Obligations.StorePcRelative : Prop :=
  (∀ (c : Config) (w : Word), c.wf → opcodeBits w = c.opcodeOf.st →
    decode c w = .ok (.st (bits w 9 3) (bits w 0 9))) ∧
  ∀ (sr : Reg) (off : BitVec 9) (s : State), ∃ t, exec (.st sr off) s = .next t ∧
    t.cell (s.pc + sext off) = s.reg sr ∧ SameCellsBut [s.pc + sext off] s t ∧
    t.cond = s.cond ∧ SameRegsBut [] s t ∧ t.pc = s.pc ∧ SameConsole s t ∧ SameControl s t

/-- 43 R115: STI, the polling pointer read and then the store. -/
def Obligations.StoreIndirect : Prop :=
  (∀ (c : Config) (w : Word), c.wf → opcodeBits w = c.opcodeOf.sti →
    decode c w = .ok (.sti (bits w 9 3) (bits w 0 9))) ∧
  ∀ (sr : Reg) (off : BitVec 9) (s : State),
    let ptr := s.memRead (s.pc + sext off)
    ∃ t, exec (.sti sr off) s = .next t ∧
      t.cell ptr.1 = s.reg sr ∧ SameCellsBut [ptr.1] ptr.2 t ∧
      t.cond = s.cond ∧ SameRegsBut [] s t ∧ t.pc = s.pc ∧ SameConsole ptr.2 t ∧ SameControl s t

/-- 43 R116: STR. -/
def Obligations.StoreBaseOffset : Prop :=
  (∀ (c : Config) (w : Word), c.wf → opcodeBits w = c.opcodeOf.str →
    decode c w = .ok (.str (bits w 9 3) (bits w 6 3) (bits w 0 6))) ∧
  ∀ (sr b : Reg) (off : BitVec 6) (s : State), ∃ t, exec (.str sr b off) s = .next t ∧
    t.cell (s.reg b + sext off) = s.reg sr ∧ SameCellsBut [s.reg b + sext off] s t ∧
    t.cond = s.cond ∧ SameRegsBut [] s t ∧ t.pc = s.pc ∧ SameConsole s t ∧ SameControl s t

/-! ## TRAP and its routines (spec/44_trap.md) -/

/-- 44 R130, R133: a TRAP whose vector is in the table, as the routine's own row (GETC, OUT, PUTS, IN, PUTSP, HALT:
the constructors `getc`, `out`, `puts`, `inChar`, `putsp`, `halt`) and as TRAP of the vector: it answers a next state
in which R7 is the return address, the engine has the routine's initial state, and nothing else changed. That the
routine runs in later steps of its own is the spec's decision D18 (log 17). -/
def Obligations.TrapEntersTheRoutine : Prop :=
  (∀ (c : Config) (w : Word), c.wf → opcodeBits w = c.opcodeOf.trap → ∀ r : Routine,
    bits w 0 8 = c.trapvecOf.vec r → decode c w = .ok (routineInstr r)) ∧
  (∀ (r : Routine) (s : State), ∃ t, exec (routineInstr r) s = .next t ∧ t.reg 7 = s.pc ∧
    t.te = (match r with
      | .getc => .getc
      | .out => .out
      | .puts => .puts (s.reg 0)
      | .putsp => .putsp (s.reg 0) .low
      | .inChar => .inPrompt 0
      | .halt => .halt 0) ∧
    SameRegsBut [7] s t ∧ t.pc = s.pc ∧ t.cond = s.cond ∧ SameCellsBut [] s t ∧ SameConsole s t ∧
    t.run = s.run ∧ t.started = s.started ∧ t.cfg = s.cfg) ∧
  ∀ (r : Routine) (s : State), s.cfg.wf →
    exec (.trap (s.cfg.trapvecOf.vec r)) s = exec (routineInstr r) s

/-- 44 R141: a TRAP with a vector outside the table writes R7; then it does nothing more, or, with `UNKNOWN_TRAP =
fault`, halts with the vector and the fetch address. The spec's decision D8 (log 8); the fetch address is read back
as pc - 1 (log 25). -/
def Obligations.UnlistedTrapVector : Prop :=
  (∀ (c : Config) (w : Word), c.wf → opcodeBits w = c.opcodeOf.trap →
    (∀ r : Routine, bits w 0 8 ≠ c.trapvecOf.vec r) → decode c w = .ok (.trap (bits w 0 8))) ∧
  ∀ (v : Byte) (s : State), (∀ r : Routine, v ≠ s.cfg.trapvecOf.vec r) →
    ∃ t, exec (.trap v) s = .next t ∧ t.reg 7 = s.pc ∧
      (s.cfg.unknownTrap = .noop → t.run = s.run) ∧
      (s.cfg.unknownTrap = .fault → t.run = .halted (.badTrap v (s.pc - 1))) ∧
      SameRegsBut [7] s t ∧ t.pc = s.pc ∧ t.cond = s.cond ∧ SameCellsBut [] s t ∧ SameConsole s t ∧
      t.te = s.te ∧ t.started = s.started ∧ t.cfg = s.cfg

/-- 44 R134, 60 R163: the GETC routine's step. NO_CHAR is the spec's decision D7 (log 7), the step D18 (log 17). -/
def Obligations.GetcReadsOneCharacter : Prop :=
  ∀ s : State, InRoutine .getc s → ∃ t, step s = .next t ∧
    (∀ c, s.conIn.1 = some c → t.reg 0 = c.setWidth 16) ∧ (s.conIn.1 = none → t.reg 0 = s.cfg.noChar) ∧
    t.te = .idle ∧ SameRegsBut [0] s t ∧ t.pc = s.pc ∧ t.cond = s.cond ∧ SameCellsBut [] s t ∧
    SameConsole s.conIn.2 t ∧ t.out = s.out ∧ t.run = s.run ∧ t.started = s.started ∧ t.cfg = s.cfg

/-- 44 R135: the OUT routine's step. That it is one engine step is the spec's decision D18 (44 R133; log 17); the
emitted bytes are kept in `out` (log 26). -/
def Obligations.OutWritesTheLowByte : Prop :=
  ∀ s : State, InRoutine .out s → ∃ t, step s = .next t ∧
    t.out = s.out ++ [(s.reg 0).setWidth 8] ∧ t.te = .idle ∧
    SameRegsBut [] s t ∧ t.pc = s.pc ∧ t.cond = s.cond ∧ SameCellsBut [] s t ∧
    t.answers = s.answers ∧ t.draws = s.draws ∧ t.run = s.run ∧ t.started = s.started ∧ t.cfg = s.cfg

/-- 44 R136, R140: one step of PUTS. The kind of read is the spec's decision D9 (log 9), the step D18 (log 17). -/
def Obligations.PutsStep : Prop :=
  ∀ (s : State) (ptr : Word), InRoutine (.puts ptr) s →
    let rd := if s.cfg.trapReadPolls = true then s.memRead ptr else (s.cell ptr, s)
    ∃ t, step s = .next t ∧
      (rd.1 = 0 → t.te = .idle ∧ t.out = s.out) ∧
      (rd.1 ≠ 0 → t.te = .puts (ptr + 1) ∧ t.out = s.out ++ [rd.1.setWidth 8]) ∧
      SameRegsBut [] s t ∧ t.pc = s.pc ∧ t.cond = s.cond ∧ SameCellsBut [] rd.2 t ∧
      t.answers = rd.2.answers ∧ t.draws = rd.2.draws ∧ t.run = s.run ∧ t.started = s.started ∧ t.cfg = s.cfg

/-- 44 R138, R140: one step of PUTSP. The kind of read is the spec's decision D9 (log 9), the stop D17 (log 16), the
step D18 (log 17). -/
def Obligations.PutspStep : Prop :=
  ∀ (s : State) (ptr : Word) (h : Half), InRoutine (.putsp ptr h) s →
    let rd := if s.cfg.trapReadPolls = true then s.memRead ptr else (s.cell ptr, s)
    let b : Byte := match h with
      | .low => rd.1.setWidth 8
      | .high => (rd.1 >>> 8).setWidth 8
    ∃ t, step s = .next t ∧
      (b = 0 → t.te = .idle ∧ t.out = s.out) ∧
      (b ≠ 0 → t.out = s.out ++ [b] ∧
        t.te = (match h with | .low => .putsp ptr .high | .high => .putsp (ptr + 1) .low)) ∧
      SameRegsBut [] s t ∧ t.pc = s.pc ∧ t.cond = s.cond ∧ SameCellsBut [] rd.2 t ∧
      t.answers = rd.2.answers ∧ t.draws = rd.2.draws ∧ t.run = s.run ∧ t.started = s.started ∧ t.cfg = s.cfg

/-- 44 R137: the steps of IN: the prompt byte by byte, the read, the echo. NO_CHAR is the spec's decision D7 (log 7),
the prompt D12 (log 11), the steps D18 (log 17). -/
def Obligations.InPromptsReadsAndEchoes : Prop :=
  (∀ (s : State) (k : Nat), InRoutine (.inPrompt k) s → ∃ t, step s = .next t ∧
    (∀ b, s.cfg.inPrompt[k]? = some b → t.out = s.out ++ [b] ∧ t.te = .inPrompt (k + 1) ∧
      SameRegsBut [] s t ∧ t.answers = s.answers ∧ t.draws = s.draws) ∧
    (s.cfg.inPrompt.length ≤ k → t.out = s.out ∧ SameRegsBut [0] s t ∧ SameConsole s.conIn.2 t ∧
      (∀ c, s.conIn.1 = some c → t.reg 0 = c.setWidth 16 ∧ t.te = .inEcho c) ∧
      (s.conIn.1 = none → t.reg 0 = s.cfg.noChar ∧ t.te = .idle)) ∧
    t.pc = s.pc ∧ t.cond = s.cond ∧ SameCellsBut [] s t ∧
    t.run = s.run ∧ t.started = s.started ∧ t.cfg = s.cfg) ∧
  ∀ (s : State) (c : Byte), InRoutine (.inEcho c) s → ∃ t, step s = .next t ∧
    t.out = s.out ++ [c] ∧ t.te = .idle ∧ SameRegsBut [] s t ∧ t.pc = s.pc ∧ t.cond = s.cond ∧
    SameCellsBut [] s t ∧ t.answers = s.answers ∧ t.draws = s.draws ∧
    t.run = s.run ∧ t.started = s.started ∧ t.cfg = s.cfg

/-- 44 R137: the whole IN routine, where the host has fixed its answer: the prompt, then the character in R0 and
echoed, or NO_CHAR and no echo. The spec's decisions D7, D12, D18 (logs 7, 11, 17); that an answer is fixed
beforehand is the model's form of the host's draw (log 6). -/
def Obligations.InRunsToCompletion : Prop :=
  ∀ (s : State) (a : Option Byte) (rest : List (Option Byte)), InRoutine (.inPrompt 0) s → s.answers = a :: rest →
    ∃ t, steps (s.cfg.inPrompt.length + (match a with | some _ => 2 | none => 1)) s = .next t ∧ t.te = .idle ∧
      (match a with
        | some c => t.reg 0 = c.setWidth 16 ∧ t.out = s.out ++ s.cfg.inPrompt ++ [c]
        | none => t.reg 0 = s.cfg.noChar ∧ t.out = s.out ++ s.cfg.inPrompt) ∧
      t.answers = rest ∧ SameRegsBut [0] s t ∧ t.pc = s.pc ∧ t.cond = s.cond ∧ SameCellsBut [] s t ∧
      t.run = s.run

/-- 44 R139: the HALT routine writes the whole notice and then halts, with everything else as it was; started by HALT
at the state `u` after the fetch, it leaves both the pc and R7 at the HALT's address + 1. The notice is a parameter
(the spec's decision D11, log 11); the steps it takes are the spec's decision D18 (44 R133; log 17); the emitted
bytes are kept in `out` (log 26). -/
def Obligations.HaltWritesTheNoticeAndHalts : Prop :=
  (∀ u : State, u.enabled = true → ∃ s t, exec .halt u = .next s ∧ steps (u.cfg.haltNotice.length + 1) s = .next t ∧
    t.run = .halted .haltTrap ∧ t.pc = u.pc ∧ t.reg 7 = u.pc) ∧
  ∀ s : State, InRoutine (.halt 0) s →
    (∀ k : Nat, k ≤ s.cfg.haltNotice.length → ∃ t, steps k s = .next t ∧ t.te = .halt k ∧ t.run = .running ∧
      t.out = s.out ++ s.cfg.haltNotice.take k) ∧
    ∃ t, steps (s.cfg.haltNotice.length + 1) s = .next t ∧ t.run = .halted .haltTrap ∧ t.te = .idle ∧
      t.out = s.out ++ s.cfg.haltNotice ∧ SameRegsBut [] s t ∧ t.pc = s.pc ∧ t.cond = s.cond ∧
      SameCellsBut [] s t ∧ t.answers = s.answers ∧ t.draws = s.draws ∧ t.exitStatus = .code 0

/-- 44 R136: with plain routine reads, PUTS writes the low bytes of the cells before the first zero cell, in order,
and completes. The spec's decisions D9, D18 (logs 9, 17). -/
def Obligations.PutsWritesTheString : Prop :=
  ∀ (s : State) (ptr : Word) (n : Nat), InRoutine (.puts ptr) s → s.cfg.trapReadPolls = false →
    (∀ k < n, s.cell (ptr + BitVec.ofNat 16 k) ≠ 0) → s.cell (ptr + BitVec.ofNat 16 n) = 0 →
    ∃ t, steps (n + 1) s = .next t ∧ t.te = .idle ∧
      t.out = s.out ++ (List.range n).map (fun k => (s.cell (ptr + BitVec.ofNat 16 k)).setWidth 8) ∧
      SameRegsBut [] s t ∧ t.pc = s.pc ∧ t.cond = s.cond ∧ SameCellsBut [] s t ∧
      t.answers = s.answers ∧ t.draws = s.draws ∧ t.run = s.run

/-- 44 R138: with plain routine reads, PUTSP writes both bytes of each of the `n` cells with no zero byte, the low
one first; at the cell after them it stops at the low byte if that is zero, else writes it and stops at the zero high
byte. The spec's decisions D9, D17, D18 (logs 9, 16, 17). -/
def Obligations.PutspWritesThePackedString : Prop :=
  ∀ (s : State) (ptr : Word) (n : Nat), InRoutine (.putsp ptr .low) s → s.cfg.trapReadPolls = false →
    (∀ k < n, (s.cell (ptr + BitVec.ofNat 16 k)).setWidth 8 ≠ 0#8 ∧
      (s.cell (ptr + BitVec.ofNat 16 k) >>> 8).setWidth 8 ≠ 0#8) →
    let last := s.cell (ptr + BitVec.ofNat 16 n)
    (last.setWidth 8 = 0#8 ∨ (last >>> 8).setWidth 8 = 0#8) →
    let whole := (List.range n).flatMap (fun k =>
      [(s.cell (ptr + BitVec.ofNat 16 k)).setWidth 8, (s.cell (ptr + BitVec.ofNat 16 k) >>> 8).setWidth 8])
    ∃ t, steps (2 * n + (if last.setWidth 8 = 0#8 then 1 else 2)) s = .next t ∧ t.te = .idle ∧
      t.out = s.out ++ whole ++ (if last.setWidth 8 = 0#8 then [] else [last.setWidth 8]) ∧
      SameRegsBut [] s t ∧ t.pc = s.pc ∧ t.cond = s.cond ∧ SameCellsBut [] s t ∧
      t.answers = s.answers ∧ t.draws = s.draws ∧ t.run = s.run

/-- 44 R143: where no cell is zero, PUTS with plain reads never completes: after any number of steps it is still in
progress, its pointer wrapped modulo 65536, a byte written by every step; likewise PUTSP where no byte is zero. With
`TRAP_READ_POLLS`, a poll at KBSR that finds no character ends the string there (`KBSR_IDLE` = 0x0000). The spec's
own inference (R143) from R136, R138, R41; its decisions D9, D17, D18 (logs 9, 16, 17). -/
def Obligations.UnterminatedStringNeverCompletes : Prop :=
  (∀ (s : State) (ptr : Word), InRoutine (.puts ptr) s → s.cfg.trapReadPolls = false →
    (∀ a : Word, s.cell a ≠ 0) → ∀ n : Nat, ∃ t, steps n s = .next t ∧
      InRoutine (.puts (ptr + BitVec.ofNat 16 n)) t ∧ t.out.length = s.out.length + n) ∧
  (∀ (s : State) (ptr : Word), InRoutine (.putsp ptr .low) s → s.cfg.trapReadPolls = false →
    (∀ a : Word, (s.cell a).setWidth 8 ≠ 0#8 ∧ (s.cell a >>> 8).setWidth 8 ≠ 0#8) → ∀ n : Nat, ∃ t,
      steps (2 * n) s = .next t ∧ InRoutine (.putsp (ptr + BitVec.ofNat 16 n) .low) t ∧
      t.out.length = s.out.length + 2 * n) ∧
  ∀ s : State, s.cfg.trapReadPolls = true → s.cfg.kbsrIdle = 0 → s.conIn.1 = none →
    (InRoutine (.puts s.cfg.kbsrAddr) s ∨ ∃ h, InRoutine (.putsp s.cfg.kbsrAddr h) s) →
    ∃ t, step s = .next t ∧ t.te = .idle ∧ t.out = s.out

/-! ## Reserved opcodes (spec/45_reserved.md) -/

/-- 45 R150, R151; 40 R86; 60 R161: RTI and RES are a BadOpcode, always: the run halts with the opcode and the fetch
address (the pc, already incremented, less one), and nothing else changes. -/
def Obligations.ReservedOpcodesAreFatal : Prop :=
  ((∀ (c : Config) (w : Word), c.wf → opcodeBits w = c.opcodeOf.rti → decode c w = .ok .rti) ∧
     ∀ s : State, ∃ t, exec .rti s = .next t ∧ t.run = .halted (.badOpcode s.cfg.opcodeOf.rti (s.pc - 1)) ∧
       SameRegsBut [] s t ∧ t.pc = s.pc ∧ t.cond = s.cond ∧ SameCellsBut [] s t ∧ SameConsole s t ∧
       t.te = s.te ∧ t.started = s.started ∧ t.cfg = s.cfg) ∧
  ((∀ (c : Config) (w : Word), c.wf → opcodeBits w = c.opcodeOf.res → decode c w = .ok .res) ∧
     ∀ s : State, ∃ t, exec .res s = .next t ∧ t.run = .halted (.badOpcode s.cfg.opcodeOf.res (s.pc - 1)) ∧
       SameRegsBut [] s t ∧ t.pc = s.pc ∧ t.cond = s.cond ∧ SameCellsBut [] s t ∧ SameConsole s t ∧
       t.te = s.te ∧ t.started = s.started ∧ t.cfg = s.cfg)

/-! ## Whole-machine rules -/

/-- 10 R24, 44 R142: exactly ADD, AND, NOT, LD, LDI, LDR, LEA write `cond`, each with the flags of its DR; no other
instruction, no trap routine and no fetch changes it. -/
def Obligations.OnlyTheseWriteCond : Prop :=
  (∀ (i : Instr) (s t : State), exec i s = .next t →
    (∀ dr, destOf i = some dr → t.cond = flagsOf s.cfg (t.reg dr)) ∧ (destOf i = none → t.cond = s.cond)) ∧
  (∀ s : State, (trapStep s).cond = s.cond) ∧ ∀ s : State, s.fetch.2.cond = s.cond

/-- 10 R25: only BR reads `cond`: for every other instruction, and for every routine step, other flags before give
the same everything but the flags after; and a flag-setting instruction leaves exactly one flag set. -/
def Obligations.OnlyBranchReadsCond : Prop :=
  (∀ (i : Instr) (s t : State) (f : BitVec 3), (∀ nzp off, i ≠ .br nzp off) → exec i s = .next t →
    exec i (s.setCond f) = .next (t.setCond (if destOf i = none then f else t.cond))) ∧
  (∀ (s : State) (f : BitVec 3), trapStep (s.setCond f) = (trapStep s).setCond f) ∧
  ∀ (i : Instr) (s t : State), exec i s = .next t → destOf i ≠ none →
    t.cond = flagBit s.cfg.condN ∨ t.cond = flagBit s.cfg.condZ ∨ t.cond = flagBit s.cfg.condP

/-- 10 R21: an instruction writes no general register but those its row of the table names, and the engine none but
R0, in GETC and IN; and a general register an instruction does not read has no influence on it: with another value
there the result is the same, but for that register where the instruction does not write it. The table is the spec's
own inference from 41 to 45 (R21). -/
def Obligations.RegisterReadsAndWritesAreTheTables : Prop :=
  ((∀ (i : Instr) (s t : State), exec i s = .next t → SameRegsBut (writtenRegs i) s t) ∧
     ∀ s : State, SameRegsBut [0] s (trapStep s) ∧
       ((trapStep s).reg 0 ≠ s.reg 0 → s.te = .getc ∨ ∃ k, s.te = .inPrompt k ∧ s.cfg.inPrompt.length ≤ k)) ∧
  (∀ (i : Instr) (s t : State) (r : Reg) (v : Word), r ∉ readRegs i → exec i s = .next t →
       exec i (s.setReg r v) = .next (if r ∈ writtenRegs i then t else t.setReg r v))

/-- 00 R13: console bytes come from the trap routines alone, at most one a step, each after all bytes before it. One
byte a step is the spec's decision D18 (log 17); the emitted bytes are kept in `out` (log 26). -/
def Obligations.OnlyRoutinesEmitBytes : Prop :=
  ∀ s t : State, step s = .next t →
    t.out = s.out ∨ (s.enabled = true ∧ s.te ≠ .idle ∧ s.te ≠ .getc ∧ ∃ b, t.out = s.out ++ [b])

/-- 00 R14: the core calls `ConIn` only for a polling read of KBSR (a fetch, a load, STI's pointer, a routine's read
with `TRAP_READ_POLLS`) and in GETC and IN; every other step leaves the host's answers alone. The answers and the
count of free draws are the model's form of the host's draw (log 6). -/
def Obligations.OnlyPollsAndGetcAndInTakeInput : Prop :=
  ∀ s t : State, step s = .next t → (t.answers ≠ s.answers ∨ t.draws ≠ s.draws) →
    s.te = .getc ∨ (∃ k, s.te = .inPrompt k ∧ s.cfg.inPrompt.length ≤ k) ∨
    (s.cfg.trapReadPolls = true ∧
      (s.te = .puts s.cfg.kbsrAddr ∨ ∃ h, s.te = .putsp s.cfg.kbsrAddr h)) ∨
    (s.te = .idle ∧ (s.pc = s.cfg.kbsrAddr ∨
      ∃ i, decode s.cfg s.fetch.1 = .ok i ∧ s.cfg.kbsrAddr ∈ readAddrs i s.fetch.2))

/-- 00 R9: but for the console input a step is a function of the state: a step that takes no answer of the host does
the same whatever the host would have answered. The spec's own inference (R9); the answers and draws are the model's
form of the host's draw (log 6). -/
def Obligations.InputMattersOnlyWhereItIsTaken : Prop :=
  ∀ (s t : State) (q : List (Option Byte)) (d : Nat), step s = .next t →
    t.answers = s.answers → t.draws = s.draws →
    step { s with answers := q, draws := d } = .next { t with answers := q, draws := d }

/-! ## Reset, loading, the host -/

/-- 10 R31: the state after reset: the spec's values. -/
def Obligations.ResetValues : Prop :=
  (∀ r : Reg, State.reset.reg r = 0) ∧ State.reset.pc = 0 ∧ State.reset.cond = 0 ∧
  (∀ a : Word, State.reset.cell a = 0) ∧ State.reset.run = .running ∧ State.reset.te = .idle

/-- 70 R194: the words of an image are its byte pairs, the first byte of each pair in bits 15..8; a file of odd
length has none. -/
def Obligations.ImageWordsAreBigEndian : Prop :=
  ∀ (bs : List Byte) (ws : List Word),
    wordsOfBytes bs = some ws ↔
      bs.length = 2 * ws.length ∧
      ∀ k, ∀ h : k < ws.length, ∃ hi lo, bs[2 * k]? = some hi ∧ bs[2 * k + 1]? = some lo ∧
        ws[k].toNat = 256 * hi.toNat + lo.toNat

/-- 70 R195: a load puts word k of the image at origin + k and leaves every other cell; 00 R10, 70 R197: it sets the
pc to the origin. That a load after an earlier one sets the pc again is the spec's decision D13 (log 12). -/
def Obligations.LoadPlacesTheWords : Prop :=
  ∀ (s : State) (hi lo : Byte) (bs : List Byte) (ws : List Word), s.started = false →
    wordsOfBytes bs = some ws → (hi ++ lo).toNat + ws.length ≤ 65536 →
    ∃ t, s.loadImage (some (hi :: lo :: bs)) = .next t ∧
      (∀ k, ∀ h : k < ws.length, t.cell ((hi ++ lo) + BitVec.ofNat 16 k) = ws[k]) ∧
      (∀ a : Word, (∀ k < ws.length, a ≠ (hi ++ lo) + BitVec.ofNat 16 k) → t.cell a = s.cell a) ∧
      t.pc = hi ++ lo ∧ SameRegsBut [] s t ∧ t.cond = s.cond ∧ SameConsole s t ∧ SameControl s t

/-- 70 R196: when a load fails (D14's reading of "truncated"), and that it is then a LoadError; otherwise it does not
fail. The spec's decision D14 (log 13). -/
def Obligations.LoadFailsExactlyWhenTruncated : Prop :=
  ∀ (s : State) (f : ImageFile), s.started = false →
    ((∃ e, s.loadImage f = .fault (.loadError e)) ↔
      (f = none ∨ ∃ bs, f = some bs ∧ (bs.length < 2 ∨ bs.length % 2 = 1 ∨
        ∃ hi lo rest, bs = hi :: lo :: rest ∧ 65536 - (hi ++ lo : Word).toNat < rest.length / 2))) ∧
    ((∃ e, s.loadImage f = .fault (.loadError e)) ∨ ∃ t, s.loadImage f = .next t)

/-- 70 R197, R198: after every successful load of one or more images and the start, every register and flag is as
reset left it, the run goes on from the origin of the last image, and the next fetch is from there. The last origin
is the spec's decision D13 (log 12), R198 its own inference. -/
def Obligations.StartAfterLoading : Prop :=
  ∀ (first : ImageFile) (more : List ImageFile) (s : State), State.reset.boot first more = .next s →
    s.run = .running ∧ s.te = .idle ∧ s.cond = 0 ∧ (∀ r : Reg, s.reg r = 0) ∧ s.enabled = true ∧ s.out = [] ∧
    ∃ hi lo rest, (first :: more).getLast? = some (some (hi :: lo :: rest)) ∧ s.pc = hi ++ lo

/-- 60 R181: an abort changes `run` alone, a routine in progress included, and no step follows. The spec's decision
D19 (log 18). -/
def Obligations.AbortStopsBetweenSteps : Prop :=
  ∀ s : State, s.started = true → s.run = .running → ∃ t, s.abort = .next t ∧ t.run = .aborted ∧
    SameRegsBut [] s t ∧ t.pc = s.pc ∧ t.cond = s.cond ∧ SameCellsBut [] s t ∧ SameConsole s t ∧ t.te = s.te ∧
    t.cfg = s.cfg ∧ t.started = s.started ∧ ∀ n : Nat, steps n t = .next t

/-- 60 R183: the exit status: zero after HALT, `BADOP_STATUS` (non-zero) after a BadOpcode, non-zero after a
LoadError, and after an abort none that the core gives (`unstated`: it is the host's). `BADOP_STATUS` is the spec's
decision D15 (log 14). -/
def Obligations.ExitStatusOfARun : Prop :=
  ∀ s : State, s.cfg.wf →
    (s.run = .halted .haltTrap → s.exitStatus = .code 0) ∧
    (∀ op addr, s.run = .halted (.badOpcode op addr) →
      s.exitStatus = .code s.cfg.badopStatus ∧ s.cfg.badopStatus ≠ 0) ∧
    (s.run = .aborted → s.exitStatus = .unstated) ∧
    (∀ f, s.started = false → (∃ e, s.loadImage f = .fault (.loadError e)) →
      launchStatus (s.loadImage f) = .nonZero)

/-! ## Invariants -/

/-- The state after reset meets the invariant (10 R31). -/
def Obligations.ResetMeetsTheInvariant : Prop := Inv State.reset

/-- Every step keeps the invariant, from every state that meets it: memory stays in canonical form, `cond` stays
legal (10 R23), R7 holds the return address throughout a routine (60 R168), every halt is precise (40 R86). The
engine's steps are the spec's decision D18 (log 17); the parameters stand in the state (log 20). -/
def Obligations.StepKeepsTheInvariant : Prop :=
  ∀ s t : State, Inv s → step s = .next t → Inv t

/-- Every run of core steps and host acts (loads of any images, start, aborts at any point, any input) keeps the
invariant and the parameters. The host's acts are the model's events (logs 18, 24, 31). -/
def Obligations.EveryRunKeepsTheInvariant : Prop :=
  ∀ (es : List Event) (s t : State), Inv s → runEvents es s = .next t → Inv t ∧ t.cfg = s.cfg
end

