-- ==== Sys2Proof/Laws/Decode.lean ====
section
/-! SUPPORT. Looking an opcode number or a trap vector up in its table (spec/30_encoding.md R65, R69). -/

namespace Sys2Proof

/-- Looking up the name of an entry finds that entry, where no two names agree. -/
theorem find_of_nodup {α β : Type} [DecidableEq β] {f : α → β} {l : List α} {a : α} (h : (l.map f).Nodup)
    (ha : a ∈ l) : l.find? (fun b => f b = f a) = some a := by
  induction l with
  | nil => cases ha
  | cons b l ih =>
    rw [List.map_cons, List.nodup_cons] at h
    rcases List.mem_cons.1 ha with rfl | ha
    · simp
    · have hne : f b ≠ f a := fun e => h.1 (e ▸ List.mem_map_of_mem ha)
      simp [hne, ih h.2 ha]

theorem opcode_mem_all (o : Opcode) : o ∈ Opcode.all := by cases o <;> decide

theorem routine_mem_all (r : Routine) : r ∈ Routine.all := by cases r <;> decide

/-- Each opcode number names its opcode (30 R65). -/
theorem opcodeName_num {c : Config} (h : c.wf) (o : Opcode) : opcodeName c.opcodeOf (c.opcodeOf.num o) = some o :=
  find_of_nodup h.1 (opcode_mem_all o)

/-- Each vector of the table names its routine (44 R132). -/
theorem trapTable_vec {c : Config} (h : c.wf) (r : Routine) : trapTable c.trapvecOf (c.trapvecOf.vec r) = some r :=
  find_of_nodup h.2.2.1 (routine_mem_all r)

theorem opcodeName_some {m : OpcodeMap} {n : BitVec 4} {o : Opcode} (h : opcodeName m n = some o) : m.num o = n := by
  simpa using List.find?_some h

theorem trapTable_some {t : TrapVectors} {v : Byte} {r : Routine} (h : trapTable t v = some r) : t.vec r = v := by
  simpa using List.find?_some h

theorem trapTable_none {t : TrapVectors} {v : Byte} : trapTable t v = none ↔ v ∉ Routine.all.map t.vec := by
  simp [trapTable, List.find?_eq_none]

/-- What the decoder can answer: an instruction of the opcode whose number the word carries. -/
theorem decode_cases {c : Config} {w : Word} {i : Instr} (h : decode c w = .ok i) :
    ∃ o, opcodeName c.opcodeOf (opcodeBits w) = some o ∧ i = decodeFields c w o := by
  unfold decode at h
  split at h
  · rename_i o ho
    exact ⟨o, ho, by cases h; rfl⟩
  · cases h

/-! ### The fields of an encoded word (30 R62) -/

/-- A field of a word, bit by bit. -/
theorem bits_ext {n : Nat} {w : Word} {lo : Nat} {v : BitVec n} (h : ∀ k : Fin n, w.getLsbD (lo + k) = v.getLsbD k) :
    bits w lo n = v := by
  apply BitVec.eq_of_getLsbD_eq
  intro k hk
  simpa [bits, hk] using h ⟨k, hk⟩

@[simp] theorem opcodeBits_encOPR (op : BitVec 4) (d s t : Reg) : opcodeBits (encOPR op d s t) = op := by
  apply bits_ext; intro k; fin_cases k <;> simp [encOPR, place]

@[simp] theorem encOPR_dr (op : BitVec 4) (d s t : Reg) : bits (encOPR op d s t) 9 3 = d := by
  apply bits_ext; intro k; fin_cases k <;> simp [encOPR, place]

@[simp] theorem encOPR_sr1 (op : BitVec 4) (d s t : Reg) : bits (encOPR op d s t) 6 3 = s := by
  apply bits_ext; intro k; fin_cases k <;> simp [encOPR, place]

@[simp] theorem encOPR_mode (op : BitVec 4) (d s t : Reg) : bits (encOPR op d s t) 5 1 = 0#1 := by
  apply bits_ext; intro k; fin_cases k; simp [encOPR, place]

@[simp] theorem encOPR_sr2 (op : BitVec 4) (d s t : Reg) : bits (encOPR op d s t) 0 3 = t := by
  apply bits_ext; intro k; fin_cases k <;> simp [encOPR, place]

@[simp] theorem opcodeBits_encOPI (op : BitVec 4) (d s : Reg) (i : BitVec 5) : opcodeBits (encOPI op d s i) = op := by
  apply bits_ext; intro k; fin_cases k <;> simp [encOPI, place]

@[simp] theorem encOPI_dr (op : BitVec 4) (d s : Reg) (i : BitVec 5) : bits (encOPI op d s i) 9 3 = d := by
  apply bits_ext; intro k; fin_cases k <;> simp [encOPI, place]

@[simp] theorem encOPI_sr1 (op : BitVec 4) (d s : Reg) (i : BitVec 5) : bits (encOPI op d s i) 6 3 = s := by
  apply bits_ext; intro k; fin_cases k <;> simp [encOPI, place]

@[simp] theorem encOPI_mode (op : BitVec 4) (d s : Reg) (i : BitVec 5) : bits (encOPI op d s i) 5 1 = 1#1 := by
  apply bits_ext; intro k; fin_cases k; simp [encOPI, place]

@[simp] theorem encOPI_imm5 (op : BitVec 4) (d s : Reg) (i : BitVec 5) : bits (encOPI op d s i) 0 5 = i := by
  apply bits_ext; intro k; fin_cases k <;> simp [encOPI, place]

@[simp] theorem opcodeBits_encPC9 (op : BitVec 4) (r : BitVec 3) (f : BitVec 9) : opcodeBits (encPC9 op r f) = op := by
  apply bits_ext; intro k; fin_cases k <;> simp [encPC9, place]

@[simp] theorem encPC9_reg (op : BitVec 4) (r : BitVec 3) (f : BitVec 9) : bits (encPC9 op r f) 9 3 = r := by
  apply bits_ext; intro k; fin_cases k <;> simp [encPC9, place]

@[simp] theorem encPC9_off9 (op : BitVec 4) (r : BitVec 3) (f : BitVec 9) : bits (encPC9 op r f) 0 9 = f := by
  apply bits_ext; intro k; fin_cases k <;> simp [encPC9, place]

@[simp] theorem opcodeBits_encB6 (op : BitVec 4) (r b : Reg) (f : BitVec 6) : opcodeBits (encB6 op r b f) = op := by
  apply bits_ext; intro k; fin_cases k <;> simp [encB6, place]

@[simp] theorem encB6_reg (op : BitVec 4) (r b : Reg) (f : BitVec 6) : bits (encB6 op r b f) 9 3 = r := by
  apply bits_ext; intro k; fin_cases k <;> simp [encB6, place]

@[simp] theorem encB6_baseR (op : BitVec 4) (r b : Reg) (f : BitVec 6) : bits (encB6 op r b f) 6 3 = b := by
  apply bits_ext; intro k; fin_cases k <;> simp [encB6, place]

@[simp] theorem encB6_off6 (op : BitVec 4) (r b : Reg) (f : BitVec 6) : bits (encB6 op r b f) 0 6 = f := by
  apply bits_ext; intro k; fin_cases k <;> simp [encB6, place]

@[simp] theorem opcodeBits_encJ11 (op : BitVec 4) (f : BitVec 11) : opcodeBits (encJ11 op f) = op := by
  apply bits_ext; intro k; fin_cases k <;> simp [encJ11, place]

@[simp] theorem encJ11_mode (op : BitVec 4) (f : BitVec 11) : bits (encJ11 op f) 11 1 = 1#1 := by
  apply bits_ext; intro k; fin_cases k; simp [encJ11, place]

@[simp] theorem encJ11_off11 (op : BitVec 4) (f : BitVec 11) : bits (encJ11 op f) 0 11 = f := by
  apply bits_ext; intro k; fin_cases k <;> simp [encJ11, place]

@[simp] theorem opcodeBits_encJRR (op : BitVec 4) (b : Reg) : opcodeBits (encJRR op b) = op := by
  apply bits_ext; intro k; fin_cases k <;> simp [encJRR, place]

@[simp] theorem encJRR_mode (op : BitVec 4) (b : Reg) : bits (encJRR op b) 11 1 = 0#1 := by
  apply bits_ext; intro k; fin_cases k; simp [encJRR, place]

@[simp] theorem encJRR_baseR (op : BitVec 4) (b : Reg) : bits (encJRR op b) 6 3 = b := by
  apply bits_ext; intro k; fin_cases k <;> simp [encJRR, place]

@[simp] theorem opcodeBits_encTV (op : BitVec 4) (v : Byte) : opcodeBits (encTV op v) = op := by
  apply bits_ext; intro k; fin_cases k <;> simp [encTV, place]

@[simp] theorem encTV_vec (op : BitVec 4) (v : Byte) : bits (encTV op v) 0 8 = v := by
  apply bits_ext; intro k; fin_cases k <;> simp [encTV, place]

@[simp] theorem opcodeBits_encNF (op : BitVec 4) : opcodeBits (encNF op) = op := by
  apply bits_ext; intro k; fin_cases k <;> simp [encNF, place]

theorem default_wf : Machine.defaultConfig.wf := by decide

end Sys2Proof
end

