-- ==== Sys2Proof/Laws/Memory.lean ====
section
/-! SUPPORT. The laws of memory (spec/20_memory.md R40, R41, R47, R52): read after write, and the canonical form. -/

namespace Sys2Proof.Machine

theorem memGet_memErase (m : Mem) (a b : Nat) :
    memGet (memErase m a) b = if b = a then unlistedCell else memGet m b := by
  induction m with
  | nil => simp [memErase, memGet]
  | cons p m ih =>
    obtain ⟨k, v⟩ := p
    by_cases hk : k = a
    · subst hk
      simp only [memErase, if_true, memGet, ih]
      split <;> simp_all [eq_comm]
    · simp only [memErase, if_neg hk, memGet, ih]
      split <;> simp_all

theorem memGet_memInsert {m : Mem} {a : Nat} (v : Word) (b : Nat) (h : ∀ p ∈ m, p.1 ≠ a) :
    memGet (memInsert m a v) b = if b = a then v else memGet m b := by
  induction m with
  | nil => simp [memInsert, memGet, eq_comm]
  | cons p m ih =>
    obtain ⟨k, u⟩ := p
    have hk : k ≠ a := h (k, u) (by simp)
    have ih := ih fun q hq => h q (List.mem_cons_of_mem _ hq)
    unfold memInsert
    split
    · simp only [memGet, eq_comm]
    · simp only [memGet, ih]
      split <;> simp_all

theorem mem_memErase {m : Mem} {a : Nat} {p : Cell} : p ∈ memErase m a ↔ p ∈ m ∧ p.1 ≠ a := by
  induction m with
  | nil => simp [memErase]
  | cons q m ih =>
    obtain ⟨k, v⟩ := q
    unfold memErase
    split
    · simp only [ih, List.mem_cons]; grind
    · simp only [ih, List.mem_cons]; grind

theorem mem_memInsert {m : Mem} {a : Nat} {v : Word} {p : Cell} :
    p ∈ memInsert m a v ↔ p = (a, v) ∨ p ∈ m := by
  induction m with
  | nil => simp [memInsert]
  | cons q m ih =>
    obtain ⟨k, u⟩ := q
    unfold memInsert
    split
    · simp
    · simp only [List.mem_cons, ih]; grind

theorem memGet_memPut (m : Mem) (a b : Nat) (v : Word) :
    memGet (memPut m a v) b = if b = a then v else memGet m b := by
  unfold memPut
  split
  · rename_i h
    rw [memGet_memErase, h]
  · rw [memGet_memInsert v b fun p hp => (mem_memErase.1 hp).2, memGet_memErase]
    split <;> rfl

/-- A write of memory, as every later read sees it (20 R47, R52). -/
theorem read_write (m : Mem) (a b v : Word) : (m.write a v).read b = if b = a then v else m.read b := by
  simp [Mem.write, Mem.read, memGet_memPut, BitVec.toNat_inj]

@[simp] theorem read_write_same (m : Mem) (a v : Word) : (m.write a v).read a = v := by simp [read_write]

theorem read_write_ne (m : Mem) {a b : Word} (v : Word) (h : b ≠ a) : (m.write a v).read b = m.read b := by
  simp [read_write, h]

theorem memErase_sorted {m : Mem} (a : Nat) (h : m.Pairwise (fun p q => p.1 < q.1)) :
    (memErase m a).Pairwise (fun p q => p.1 < q.1) := by
  induction m with
  | nil => simp [memErase]
  | cons q m ih =>
    obtain ⟨k, v⟩ := q
    rw [List.pairwise_cons] at h
    unfold memErase
    split
    · exact ih h.2
    · exact List.pairwise_cons.2 ⟨fun p hp => h.1 p (mem_memErase.1 hp).1, ih h.2⟩

theorem memInsert_sorted {m : Mem} {a : Nat} (v : Word) (h : m.Pairwise (fun p q => p.1 < q.1))
    (ha : ∀ p ∈ m, p.1 ≠ a) : (memInsert m a v).Pairwise (fun p q => p.1 < q.1) := by
  induction m with
  | nil => simp [memInsert]
  | cons q m ih =>
    obtain ⟨k, u⟩ := q
    have hk : k ≠ a := ha (k, u) (by simp)
    have hc := List.pairwise_cons.1 h
    unfold memInsert
    split
    · rename_i hlt
      refine List.pairwise_cons.2 ⟨fun p hp => ?_, h⟩
      rcases List.mem_cons.1 hp with rfl | hp
      · exact hlt
      · exact Nat.lt_trans hlt (hc.1 p hp)
    · rename_i hlt
      refine List.pairwise_cons.2 ⟨fun p hp => ?_, ih hc.2 fun p hp => ha p (List.mem_cons_of_mem _ hp)⟩
      rcases mem_memInsert.1 hp with rfl | hp
      · show k < a; omega
      · exact hc.1 p hp

/-- Every write keeps memory in canonical form. -/
theorem write_wf {m : Mem} (a v : Word) (h : m.wf) : (m.write a v).wf := by
  unfold Mem.write memPut
  split
  · exact ⟨memErase_sorted _ h.1, fun p hp => h.2 p (mem_memErase.1 hp).1⟩
  · rename_i hv
    refine ⟨memInsert_sorted v (memErase_sorted _ h.1) fun p hp => (mem_memErase.1 hp).2, fun p hp => ?_⟩
    rcases mem_memInsert.1 hp with rfl | hp
    · exact ⟨a.isLt, hv⟩
    · exact h.2 p (mem_memErase.1 hp).1

/-- The memory of reset is in canonical form. -/
theorem reset_mem_wf : State.reset.mem.wf := by decide

theorem memGet_of_lt {m : Mem} {a : Nat} (h : ∀ p ∈ m, a < p.1) : memGet m a = unlistedCell := by
  induction m with
  | nil => rfl
  | cons p m ih =>
    have hp : a < p.1 := h p (by simp)
    simp only [memGet]
    rw [if_neg (by omega)]
    exact ih fun q hq => h q (List.mem_cons_of_mem _ hq)

theorem wf_tail {p : Cell} {m : Mem} (h : Mem.wf (p :: m)) : Mem.wf m :=
  ⟨(List.pairwise_cons.1 h.1).2, fun q hq => h.2 q (List.mem_cons_of_mem _ hq)⟩

/-- In canonical form, memories that read the same at every listed address are the same list. -/
theorem memGet_ext {m n : Mem} (hm : m.wf) (hn : n.wf) (h : ∀ a < 65536, memGet m a = memGet n a) : m = n := by
  induction m generalizing n with
  | nil =>
    cases n with
    | nil => rfl
    | cons q n =>
      obtain ⟨b, u⟩ := q
      have hb := hn.2 (b, u) (by simp)
      exact absurd (h b hb.1).symm (by simpa [memGet] using hb.2)
  | cons p m ih =>
    obtain ⟨a, v⟩ := p
    have ha := hm.2 (a, v) (by simp)
    have hma : ∀ p ∈ m, a < p.1 := (List.pairwise_cons.1 hm.1).1
    cases n with
    | nil => exact absurd (h a ha.1) (by simpa [memGet] using ha.2)
    | cons q n =>
      obtain ⟨b, u⟩ := q
      have hb := hn.2 (b, u) (by simp)
      have hnb : ∀ p ∈ n, b < p.1 := (List.pairwise_cons.1 hn.1).1
      have hab : a = b := by
        rcases Nat.lt_trichotomy a b with hlt | rfl | hlt
        · have : memGet ((b, u) :: n) a = unlistedCell := memGet_of_lt fun p hp => by
            rcases List.mem_cons.1 hp with rfl | hp
            · exact hlt
            · exact Nat.lt_trans hlt (hnb p hp)
          exact absurd ((h a ha.1).trans this) (by simpa [memGet] using ha.2)
        · rfl
        · have : memGet ((a, v) :: m) b = unlistedCell := memGet_of_lt fun p hp => by
            rcases List.mem_cons.1 hp with rfl | hp
            · exact hlt
            · exact Nat.lt_trans hlt (hma p hp)
          exact absurd ((h b hb.1).symm.trans this) (by simpa [memGet] using hb.2)
      subst hab
      have hvu : v = u := by simpa [memGet] using h a ha.1
      subst hvu
      congr 1
      refine ih (wf_tail hm) (wf_tail hn) fun c hc => ?_
      have := h c hc
      by_cases hac : a = c
      · subst hac; rw [memGet_of_lt hma, memGet_of_lt hnb]
      · simpa [memGet, hac] using this

/-- Equal memories are equal data: in canonical form, memories whose 65536 cells agree are the same list. -/
theorem read_ext {m n : Mem} (hm : m.wf) (hn : n.wf) (h : ∀ a : Word, m.read a = n.read a) : m = n :=
  memGet_ext hm hn fun a ha => by
    simpa [Mem.read, Nat.mod_eq_of_lt ha] using h (BitVec.ofNat 16 a)

end Sys2Proof.Machine
end

