-- ==== Sys2Proof/Laws/State.lean ====
section
/-! SUPPORT. One lemma per field per update of State, true by rfl; and the register read after each update. -/

namespace Sys2Proof.Machine

variable (s : State)

/-! ### setReg -/

@[simp] theorem setReg_cfg (i : Reg) (v : Word) : (s.setReg i v).cfg = s.cfg := rfl
@[simp] theorem setReg_x (i : Reg) (v : Word) : (s.setReg i v).x = s.x.set i.toNat v i.isLt := rfl
@[simp] theorem setReg_pc (i : Reg) (v : Word) : (s.setReg i v).pc = s.pc := rfl
@[simp] theorem setReg_cond (i : Reg) (v : Word) : (s.setReg i v).cond = s.cond := rfl
@[simp] theorem setReg_mem (i : Reg) (v : Word) : (s.setReg i v).mem = s.mem := rfl
@[simp] theorem setReg_run (i : Reg) (v : Word) : (s.setReg i v).run = s.run := rfl
@[simp] theorem setReg_te (i : Reg) (v : Word) : (s.setReg i v).te = s.te := rfl
@[simp] theorem setReg_started (i : Reg) (v : Word) : (s.setReg i v).started = s.started := rfl
@[simp] theorem setReg_answers (i : Reg) (v : Word) : (s.setReg i v).answers = s.answers := rfl
@[simp] theorem setReg_draws (i : Reg) (v : Word) : (s.setReg i v).draws = s.draws := rfl
@[simp] theorem setReg_out (i : Reg) (v : Word) : (s.setReg i v).out = s.out := rfl
@[simp] theorem setReg_cell (i : Reg) (v : Word) (c : Word) : (s.setReg i v).cell c = s.cell c := rfl

/-! ### setPc -/

@[simp] theorem setPc_cfg (v : Word) : (s.setPc v).cfg = s.cfg := rfl
@[simp] theorem setPc_x (v : Word) : (s.setPc v).x = s.x := rfl
@[simp] theorem setPc_pc (v : Word) : (s.setPc v).pc = v := rfl
@[simp] theorem setPc_cond (v : Word) : (s.setPc v).cond = s.cond := rfl
@[simp] theorem setPc_mem (v : Word) : (s.setPc v).mem = s.mem := rfl
@[simp] theorem setPc_run (v : Word) : (s.setPc v).run = s.run := rfl
@[simp] theorem setPc_te (v : Word) : (s.setPc v).te = s.te := rfl
@[simp] theorem setPc_started (v : Word) : (s.setPc v).started = s.started := rfl
@[simp] theorem setPc_answers (v : Word) : (s.setPc v).answers = s.answers := rfl
@[simp] theorem setPc_draws (v : Word) : (s.setPc v).draws = s.draws := rfl
@[simp] theorem setPc_out (v : Word) : (s.setPc v).out = s.out := rfl
@[simp] theorem setPc_reg (v : Word) (j : Reg) : (s.setPc v).reg j = s.reg j := rfl
@[simp] theorem setPc_cell (v : Word) (c : Word) : (s.setPc v).cell c = s.cell c := rfl

/-! ### setCond -/

@[simp] theorem setCond_cfg (f : BitVec 3) : (s.setCond f).cfg = s.cfg := rfl
@[simp] theorem setCond_x (f : BitVec 3) : (s.setCond f).x = s.x := rfl
@[simp] theorem setCond_pc (f : BitVec 3) : (s.setCond f).pc = s.pc := rfl
@[simp] theorem setCond_cond (f : BitVec 3) : (s.setCond f).cond = f := rfl
@[simp] theorem setCond_mem (f : BitVec 3) : (s.setCond f).mem = s.mem := rfl
@[simp] theorem setCond_run (f : BitVec 3) : (s.setCond f).run = s.run := rfl
@[simp] theorem setCond_te (f : BitVec 3) : (s.setCond f).te = s.te := rfl
@[simp] theorem setCond_started (f : BitVec 3) : (s.setCond f).started = s.started := rfl
@[simp] theorem setCond_answers (f : BitVec 3) : (s.setCond f).answers = s.answers := rfl
@[simp] theorem setCond_draws (f : BitVec 3) : (s.setCond f).draws = s.draws := rfl
@[simp] theorem setCond_out (f : BitVec 3) : (s.setCond f).out = s.out := rfl
@[simp] theorem setCond_reg (f : BitVec 3) (j : Reg) : (s.setCond f).reg j = s.reg j := rfl
@[simp] theorem setCond_cell (f : BitVec 3) (c : Word) : (s.setCond f).cell c = s.cell c := rfl

/-! ### setTe -/

@[simp] theorem setTe_cfg (t : TrapEngine) : (s.setTe t).cfg = s.cfg := rfl
@[simp] theorem setTe_x (t : TrapEngine) : (s.setTe t).x = s.x := rfl
@[simp] theorem setTe_pc (t : TrapEngine) : (s.setTe t).pc = s.pc := rfl
@[simp] theorem setTe_cond (t : TrapEngine) : (s.setTe t).cond = s.cond := rfl
@[simp] theorem setTe_mem (t : TrapEngine) : (s.setTe t).mem = s.mem := rfl
@[simp] theorem setTe_run (t : TrapEngine) : (s.setTe t).run = s.run := rfl
@[simp] theorem setTe_te (t : TrapEngine) : (s.setTe t).te = t := rfl
@[simp] theorem setTe_started (t : TrapEngine) : (s.setTe t).started = s.started := rfl
@[simp] theorem setTe_answers (t : TrapEngine) : (s.setTe t).answers = s.answers := rfl
@[simp] theorem setTe_draws (t : TrapEngine) : (s.setTe t).draws = s.draws := rfl
@[simp] theorem setTe_out (t : TrapEngine) : (s.setTe t).out = s.out := rfl
@[simp] theorem setTe_reg (t : TrapEngine) (j : Reg) : (s.setTe t).reg j = s.reg j := rfl
@[simp] theorem setTe_cell (t : TrapEngine) (c : Word) : (s.setTe t).cell c = s.cell c := rfl

/-! ### setRun -/

@[simp] theorem setRun_cfg (r : RunState) : (s.setRun r).cfg = s.cfg := rfl
@[simp] theorem setRun_x (r : RunState) : (s.setRun r).x = s.x := rfl
@[simp] theorem setRun_pc (r : RunState) : (s.setRun r).pc = s.pc := rfl
@[simp] theorem setRun_cond (r : RunState) : (s.setRun r).cond = s.cond := rfl
@[simp] theorem setRun_mem (r : RunState) : (s.setRun r).mem = s.mem := rfl
@[simp] theorem setRun_run (r : RunState) : (s.setRun r).run = r := rfl
@[simp] theorem setRun_te (r : RunState) : (s.setRun r).te = s.te := rfl
@[simp] theorem setRun_started (r : RunState) : (s.setRun r).started = s.started := rfl
@[simp] theorem setRun_answers (r : RunState) : (s.setRun r).answers = s.answers := rfl
@[simp] theorem setRun_draws (r : RunState) : (s.setRun r).draws = s.draws := rfl
@[simp] theorem setRun_out (r : RunState) : (s.setRun r).out = s.out := rfl
@[simp] theorem setRun_reg (r : RunState) (j : Reg) : (s.setRun r).reg j = s.reg j := rfl
@[simp] theorem setRun_cell (r : RunState) (c : Word) : (s.setRun r).cell c = s.cell c := rfl

/-! ### conOut -/

@[simp] theorem conOut_cfg (b : Byte) : (s.conOut b).cfg = s.cfg := rfl
@[simp] theorem conOut_x (b : Byte) : (s.conOut b).x = s.x := rfl
@[simp] theorem conOut_pc (b : Byte) : (s.conOut b).pc = s.pc := rfl
@[simp] theorem conOut_cond (b : Byte) : (s.conOut b).cond = s.cond := rfl
@[simp] theorem conOut_mem (b : Byte) : (s.conOut b).mem = s.mem := rfl
@[simp] theorem conOut_run (b : Byte) : (s.conOut b).run = s.run := rfl
@[simp] theorem conOut_te (b : Byte) : (s.conOut b).te = s.te := rfl
@[simp] theorem conOut_started (b : Byte) : (s.conOut b).started = s.started := rfl
@[simp] theorem conOut_answers (b : Byte) : (s.conOut b).answers = s.answers := rfl
@[simp] theorem conOut_draws (b : Byte) : (s.conOut b).draws = s.draws := rfl
@[simp] theorem conOut_out (b : Byte) : (s.conOut b).out = s.out ++ [b] := rfl
@[simp] theorem conOut_reg (b : Byte) (j : Reg) : (s.conOut b).reg j = s.reg j := rfl
@[simp] theorem conOut_cell (b : Byte) (c : Word) : (s.conOut b).cell c = s.cell c := rfl

/-! ### memWrite -/

@[simp] theorem memWrite_cfg (a v : Word) : (s.memWrite a v).cfg = s.cfg := rfl
@[simp] theorem memWrite_x (a v : Word) : (s.memWrite a v).x = s.x := rfl
@[simp] theorem memWrite_pc (a v : Word) : (s.memWrite a v).pc = s.pc := rfl
@[simp] theorem memWrite_cond (a v : Word) : (s.memWrite a v).cond = s.cond := rfl
@[simp] theorem memWrite_mem (a v : Word) : (s.memWrite a v).mem = s.mem.write a v := rfl
@[simp] theorem memWrite_run (a v : Word) : (s.memWrite a v).run = s.run := rfl
@[simp] theorem memWrite_te (a v : Word) : (s.memWrite a v).te = s.te := rfl
@[simp] theorem memWrite_started (a v : Word) : (s.memWrite a v).started = s.started := rfl
@[simp] theorem memWrite_answers (a v : Word) : (s.memWrite a v).answers = s.answers := rfl
@[simp] theorem memWrite_draws (a v : Word) : (s.memWrite a v).draws = s.draws := rfl
@[simp] theorem memWrite_out (a v : Word) : (s.memWrite a v).out = s.out := rfl
@[simp] theorem memWrite_reg (a v : Word) (j : Reg) : (s.memWrite a v).reg j = s.reg j := rfl

/-! ### Registers -/

@[simp] theorem setReg_reg_same (i : Reg) (v : Word) : (s.setReg i v).reg i = v := by
  simp [State.reg, State.setReg]

theorem setReg_reg_ne {i j : Reg} (v : Word) (h : j ≠ i) : (s.setReg i v).reg j = s.reg j := by
  have h' : i.toNat ≠ j.toNat := fun e => h (BitVec.eq_of_toNat_eq e).symm
  simp [State.reg, State.setReg, h']

/-- A register read after a register write (10 R20: no alias, no hard-wired register). -/
theorem setReg_reg (i j : Reg) (v : Word) : (s.setReg i v).reg j = if j = i then v else s.reg j := by
  by_cases h : j = i
  · subst h; simp
  · simp [h, setReg_reg_ne]

/-- Two register files that read the same everywhere are the same. -/
theorem regs_ext {s t : State} (h : ∀ r : Reg, t.reg r = s.reg r) : t.x = s.x := by
  apply Vector.ext
  intro i hi
  simpa [State.reg, Nat.mod_eq_of_lt hi] using h (BitVec.ofNat 3 i)

end Sys2Proof.Machine
end

