-- ==== Sys2Proof/Laws/Ops.lean ====
section
/-! SUPPORT. For each shared operation, what it does, said once. -/

namespace Sys2Proof.Machine

variable (s : State)

/-! ### Cells -/

/-- A cell read after a store (20 R47). -/
theorem memWrite_cell (a v b : Word) : (s.memWrite a v).cell b = if b = a then v else s.cell b :=
  read_write s.mem a b v

@[simp] theorem memWrite_cell_same (a v : Word) : (s.memWrite a v).cell a = v := by simp [memWrite_cell]

/-! ### setcc and writeDest (41 R91) -/

@[simp] theorem setcc_eq (i : Reg) : s.setcc i = s.setCond (flagsOf s.cfg (s.reg i)) := rfl

/-- Writing a destination register sets the flags from the value written. -/
theorem writeDest_eq (dr : Reg) (v : Word) :
    s.writeDest dr v = (s.setReg dr v).setCond (flagsOf s.cfg v) := by
  simp [State.writeDest]

/-! ### ConIn (00 R14) -/

theorem conIn_cons {a : Option Byte} {rest : List (Option Byte)} (h : s.answers = a :: rest) :
    s.conIn = (a, { s with answers := rest }) := by
  simp [State.conIn, h]

theorem conIn_nil (h : s.answers = []) :
    s.conIn = (Config.conInDraw s.draws, { s with draws := s.draws + 1 }) := by
  simp [State.conIn, h]

/-- `ConIn` changes nothing but which answer comes next. -/
theorem conIn_state : ∃ q d, s.conIn.2 = { s with answers := q, draws := d } := by
  unfold State.conIn
  split <;> exact ⟨_, _, rfl⟩

@[simp] theorem conIn_cfg : s.conIn.2.cfg = s.cfg := by unfold State.conIn; split <;> rfl
@[simp] theorem conIn_x : s.conIn.2.x = s.x := by unfold State.conIn; split <;> rfl
@[simp] theorem conIn_pc : s.conIn.2.pc = s.pc := by unfold State.conIn; split <;> rfl
@[simp] theorem conIn_cond : s.conIn.2.cond = s.cond := by unfold State.conIn; split <;> rfl
@[simp] theorem conIn_mem : s.conIn.2.mem = s.mem := by unfold State.conIn; split <;> rfl
@[simp] theorem conIn_run : s.conIn.2.run = s.run := by unfold State.conIn; split <;> rfl
@[simp] theorem conIn_te : s.conIn.2.te = s.te := by unfold State.conIn; split <;> rfl
@[simp] theorem conIn_started : s.conIn.2.started = s.started := by unfold State.conIn; split <;> rfl
@[simp] theorem conIn_out : s.conIn.2.out = s.out := by unfold State.conIn; split <;> rfl
@[simp] theorem conIn_reg (i : Reg) : s.conIn.2.reg i = s.reg i := by simp [State.reg]
@[simp] theorem conIn_cell (a : Word) : s.conIn.2.cell a = s.cell a := by simp [State.cell]

/-! ### The poll (20 R46) -/

/-- The cells after a poll's refresh. -/
theorem refreshKb_cell (hk : s.cfg.kbsrAddr ≠ s.cfg.kbdrAddr) (a : Word) : ∀ c : Option Byte,
    (s.refreshKb c).cell a =
      if a = s.cfg.kbsrAddr then (match c with | some _ => s.cfg.kbsrReady | none => s.cfg.kbsrIdle)
      else if a = s.cfg.kbdrAddr then (match c with | some b => zext8 b | none => s.cell a)
      else s.cell a
  | some b => by
    simp only [State.refreshKb, memWrite_cell]
    by_cases h1 : a = s.cfg.kbsrAddr
    · simp [h1, hk]
    · simp [h1]
  | none => by
    simp only [State.refreshKb, memWrite_cell]
    split <;> simp

/-- A refresh changes nothing but memory. -/
theorem refreshKb_state (c : Option Byte) : ∃ m, s.refreshKb c = { s with mem := m } := by
  cases c <;> exact ⟨_, rfl⟩

theorem refreshKb_mem_wf (c : Option Byte) (h : s.mem.wf) : (s.refreshKb c).mem.wf := by
  cases c
  · exact write_wf _ _ h
  · exact write_wf _ _ (write_wf _ _ h)

/-- A read leaves everything but memory and the host's answers as it was. -/
theorem afterRead_state (a : Word) :
    ∃ m q d, s.afterRead a = { s with mem := m, answers := q, draws := d } := by
  unfold State.afterRead
  split
  · obtain ⟨q, d, h⟩ := conIn_state s
    obtain ⟨m, h'⟩ := refreshKb_state s.conIn.2 s.conIn.1
    exact ⟨m, q, d, by rw [State.kbPoll, h', h]⟩
  · exact ⟨s.mem, s.answers, s.draws, rfl⟩

/-- A read of any address but KBSR changes nothing (20 R48). -/
theorem afterRead_of_ne {a : Word} (h : a ≠ s.cfg.kbsrAddr) : s.afterRead a = s := by
  simp [State.afterRead, h]

theorem afterRead_kbsr : s.afterRead s.cfg.kbsrAddr = s.kbPoll := by simp [State.afterRead]

@[simp] theorem afterRead_cfg (a : Word) : (s.afterRead a).cfg = s.cfg := by
  obtain ⟨m, q, d, h⟩ := afterRead_state s a; rw [h]
@[simp] theorem afterRead_x (a : Word) : (s.afterRead a).x = s.x := by
  obtain ⟨m, q, d, h⟩ := afterRead_state s a; rw [h]
@[simp] theorem afterRead_pc (a : Word) : (s.afterRead a).pc = s.pc := by
  obtain ⟨m, q, d, h⟩ := afterRead_state s a; rw [h]
@[simp] theorem afterRead_cond (a : Word) : (s.afterRead a).cond = s.cond := by
  obtain ⟨m, q, d, h⟩ := afterRead_state s a; rw [h]
@[simp] theorem afterRead_run (a : Word) : (s.afterRead a).run = s.run := by
  obtain ⟨m, q, d, h⟩ := afterRead_state s a; rw [h]
@[simp] theorem afterRead_te (a : Word) : (s.afterRead a).te = s.te := by
  obtain ⟨m, q, d, h⟩ := afterRead_state s a; rw [h]
@[simp] theorem afterRead_started (a : Word) : (s.afterRead a).started = s.started := by
  obtain ⟨m, q, d, h⟩ := afterRead_state s a; rw [h]
@[simp] theorem afterRead_out (a : Word) : (s.afterRead a).out = s.out := by
  obtain ⟨m, q, d, h⟩ := afterRead_state s a; rw [h]
@[simp] theorem afterRead_reg (a : Word) (i : Reg) : (s.afterRead a).reg i = s.reg i := by simp [State.reg]

/-- A read changes at most the two keyboard cells (20 R46, R48). -/
theorem afterRead_cell_ne (a : Word) {b : Word} (h1 : b ≠ s.cfg.kbsrAddr) (h2 : b ≠ s.cfg.kbdrAddr) :
    (s.afterRead a).cell b = s.cell b := by
  unfold State.afterRead
  split
  · unfold State.kbPoll State.refreshKb
    split <;> simp [memWrite_cell, h1, h2]
  · rfl

theorem afterRead_mem_wf (a : Word) (h : s.mem.wf) : (s.afterRead a).mem.wf := by
  unfold State.afterRead
  split
  · exact refreshKb_mem_wf _ _ (by simpa using h)
  · exact h

@[simp] theorem memRead_snd (a : Word) : (s.memRead a).2 = s.afterRead a := rfl
@[simp] theorem memRead_fst (a : Word) : (s.memRead a).1 = (s.afterRead a).cell a := rfl

/-- A polling read of any address but KBSR is the cell, and changes nothing (20 R45, R48). -/
theorem memRead_of_ne {a : Word} (h : a ≠ s.cfg.kbsrAddr) : s.memRead a = (s.cell a, s) := by
  simp [State.memRead, afterRead_of_ne s h]

/-- A routine's read leaves a state that some polling read leaves, or the same state (44 R140). -/
theorem trapRead_snd (a : Word) : (s.trapRead a).2 = s.afterRead a ∨ (s.trapRead a).2 = s := by
  unfold State.trapRead
  split <;> simp

/-- A routine's read leaves everything but memory and the host's answers as it was. -/
theorem trapRead_state (a : Word) :
    ∃ m q d, (s.trapRead a).2 = { s with mem := m, answers := q, draws := d } := by
  rcases trapRead_snd s a with h | h
  · rw [h]; exact afterRead_state s a
  · exact ⟨s.mem, s.answers, s.draws, h⟩

/-- A routine's read keeps memory in canonical form. -/
theorem trapRead_mem_wf (a : Word) (h : s.mem.wf) : (s.trapRead a).2.mem.wf := by
  rcases trapRead_snd s a with h' | h' <;> rw [h']
  · exact afterRead_mem_wf s a h
  · exact h

/-- With `TRAP_READ_POLLS = false` a routine's read has no side effect (44 R140). -/
theorem trapRead_plain (h : s.cfg.trapReadPolls = false) (a : Word) : s.trapRead a = (s.cell a, s) := by
  simp [State.trapRead, h]

/-! ### Loads (43 R110 to R112) -/

/-- A load reads, writes its destination and sets the flags from the value read. -/
theorem loadFrom_eq (dr : Reg) (ea : Word) :
    s.loadFrom dr ea =
      ((s.afterRead ea).setReg dr ((s.afterRead ea).cell ea)).setCond (flagsOf s.cfg ((s.afterRead ea).cell ea)) := by
  simp [State.loadFrom, writeDest_eq]

/-! ### Trap entry and BadOpcode (44 R130, 60 R161) -/

/-- Trap entry writes R7, the engine state, and nothing else. -/
theorem enterRoutine_eq (r : Routine) :
    s.enterRoutine r = (s.setReg 7 s.pc).setTe (startRoutine r (s.reg 0)) := by
  have h : (s.setReg 7 s.pc).reg 0 = s.reg 0 := setReg_reg_ne s s.pc (by decide)
  rw [State.enterRoutine, State.saveReturn, h]

/-- TRAP writes R7 and then either starts a routine, or does nothing more, or halts. -/
theorem enterTrap_cases (v : Byte) :
    (∃ r, trapTable s.cfg.trapvecOf v = some r ∧ s.enterTrap v = s.enterRoutine r) ∨
    (trapTable s.cfg.trapvecOf v = none ∧ s.cfg.unknownTrap = .noop ∧ s.enterTrap v = s.setReg 7 s.pc) ∨
    (trapTable s.cfg.trapvecOf v = none ∧ s.cfg.unknownTrap = .fault ∧
      s.enterTrap v = (s.setReg 7 s.pc).setRun (.halted (.badTrap v (s.pc - 1)))) := by
  unfold State.enterTrap
  split
  · rename_i r h
    exact .inl ⟨r, h, rfl⟩
  · rename_i h
    unfold State.unknownTrap
    split
    · rename_i hc
      exact .inr (.inl ⟨h, hc, rfl⟩)
    · rename_i hc
      exact .inr (.inr ⟨h, hc, rfl⟩)

@[simp] theorem raiseBadOpcode_eq (op : BitVec 4) :
    s.raiseBadOpcode op = s.setRun (.halted (.badOpcode op (s.pc - 1))) := rfl

@[simp] theorem leaveRoutine_eq : s.leaveRoutine = s.setTe .idle := rfl

/-! ### The trap engine (44 R133) -/

/-- An engine step leaves `cfg`, `pc`, `cond` and `started` as they were (44 R130, R142). -/
theorem trapStep_frame : ∃ x m q d r t o,
    trapStep s = { s with x := x, mem := m, answers := q, draws := d, run := r, te := t, out := o } := by
  obtain ⟨q, d, hc⟩ := conIn_state s
  unfold trapStep
  split
  · exact ⟨_, _, _, _, _, _, _, rfl⟩
  · rw [trapGetc, hc]
    exact ⟨_, _, _, _, _, _, _, rfl⟩
  · exact ⟨_, _, _, _, _, _, _, rfl⟩
  · rename_i p _
    obtain ⟨m, q, d, h⟩ := trapRead_state s p
    unfold trapPuts
    split <;> rw [h] <;> exact ⟨_, _, _, _, _, _, _, rfl⟩
  · rename_i p h' _
    obtain ⟨m, q, d, h⟩ := trapRead_state s p
    unfold trapPutsp
    split <;> rw [h] <;> exact ⟨_, _, _, _, _, _, _, rfl⟩
  · unfold trapInPrompt trapInRead
    split
    · exact ⟨_, _, _, _, _, _, _, rfl⟩
    · split <;> rw [hc] <;> exact ⟨_, _, _, _, _, _, _, rfl⟩
  · exact ⟨_, _, _, _, _, _, _, rfl⟩
  · unfold trapHalt
    split <;> exact ⟨_, _, _, _, _, _, _, rfl⟩

/-! ### The step (40 R80) -/

theorem enabled_iff : s.enabled = true ↔ s.started = true ∧ s.run = .running := by
  simp [State.enabled]

theorem fetch_eq : s.fetch = ((s.afterRead s.pc).cell s.pc, (s.afterRead s.pc).setPc (s.pc + 1)) := rfl

theorem step_of_disabled (h : s.enabled = false) : step s = .next s := by simp [step, cycle, h]

theorem step_of_instruction (h : AtInstruction s) : step s = runInstruction s := by
  simp [step, cycle, h.1, h.2]

theorem step_of_routine (h : s.enabled = true) (hte : s.te ≠ .idle) : step s = .next (trapStep s) := by
  simp [step, cycle, h, hte]

/-- Every instruction answers a next state: no arm faults or refuses. -/
theorem exec_next (i : Instr) (s : State) : ∃ t, exec i s = .next t := by
  cases i <;> exact ⟨_, rfl⟩

/-- What a step can do, said once: nothing, one engine step, one instruction, or a BadOpcode of a number that has no
opcode. -/
theorem step_cases {t : State} (h : step s = .next t) :
    (s.enabled = false ∧ t = s) ∨
    (s.enabled = true ∧ s.te ≠ .idle ∧ t = trapStep s) ∨
    (AtInstruction s ∧ ∃ i, decode s.cfg s.fetch.1 = .ok i ∧ exec i s.fetch.2 = .next t) ∨
    (AtInstruction s ∧ ∃ op, decode s.cfg s.fetch.1 = .error (.noHandler op) ∧
      t = s.fetch.2.raiseBadOpcode op) := by
  unfold step cycle at h
  split at h
  · rename_i he
    split at h
    · rename_i hte
      unfold runInstruction at h
      cases hd : decode s.cfg s.fetch.1 with
      | ok i =>
        rw [hd] at h
        exact .inr (.inr (.inl ⟨⟨he, hte⟩, i, rfl, h⟩))
      | error e =>
        obtain ⟨op⟩ := e
        rw [hd] at h
        cases h
        exact .inr (.inr (.inr ⟨⟨he, hte⟩, op, rfl, rfl⟩))
    · rename_i hte
      cases h
      exact .inr (.inl ⟨he, hte, rfl⟩)
  · rename_i he
    cases h
    exact .inl ⟨by simpa using he, rfl⟩

end Sys2Proof.Machine
end

