-- ==== Sys2Proof/Laws/Host.lean ====
section
/-! SUPPORT. What the host's calls do (spec/70_reset_and_hazards.md R193 to R197, spec/60_exceptions.md R181). -/

namespace Sys2Proof.Machine

/-- A successful load is of a file with an origin, before the start, and changes memory and the pc alone (70 R195). -/
theorem loadImage_next {s t : State} {f : ImageFile} (h : s.loadImage f = .next t) :
    s.started = false ∧ ∃ hi lo bs ws, f = some (hi :: lo :: bs) ∧ wordsOfBytes bs = some ws ∧
      t = { s with mem := storeWords ws (hi ++ lo) s.mem, pc := hi ++ lo } := by
  unfold State.loadImage at h
  split at h
  · cases h
  · rename_i hst
    refine ⟨by simpa using hst, ?_⟩
    split at h
    · cases h
    · cases h
    · cases h
    · split at h
      · cases h
      · rename_i hi lo bs _ ws hw
        unfold State.loadWords at h
        split at h
        · cases h
        · cases h
          exact ⟨hi, lo, bs, ws, rfl, hw, rfl⟩

/-- Storing words keeps memory in canonical form. -/
theorem storeWords_wf (ws : List Word) : ∀ (a : Word) (m : Mem), m.wf → (storeWords ws a m).wf := by
  induction ws with
  | nil => exact fun _ _ h => h
  | cons w ws ih => exact fun _ _ h => ih _ _ (write_wf _ _ h)

/-- A cell no stored word's address names reads as before. -/
theorem storeWords_read_ne (ws : List Word) : ∀ (a : Word) (m : Mem) (b : Word),
    (∀ k < ws.length, b ≠ a + BitVec.ofNat 16 k) → (storeWords ws a m).read b = m.read b := by
  induction ws with
  | nil => exact fun _ _ _ _ => rfl
  | cons w ws ih =>
    intro a m b h
    have h0 : b ≠ a := by simpa using h 0 (by simp)
    have e (k : Nat) : a + 1 + BitVec.ofNat 16 k = a + BitVec.ofNat 16 (k + 1) := by
      rw [Nat.add_comm k 1, BitVec.ofNat_add, ← BitVec.add_assoc]; rfl
    rw [storeWords, ih (a + 1) _ b fun k hk => by rw [e]; exact h (k + 1) (by simpa using hk), read_write_ne _ _ h0]

/-- The first event, then the rest. -/
theorem runEvents_cons {e : Event} {es : List Event} {s t : State} (h : runEvents (e :: es) s = .next t) :
    ∃ u, act e s = .next u ∧ runEvents es u = .next t := by
  simp only [runEvents] at h
  split at h
  · exact ⟨_, ‹_›, h⟩
  · cases h
  · cases h

/-- One step, then `n` more. -/
theorem steps_succ (n : Nat) {s t : State} (h : step s = .next t) : steps (n + 1) s = steps n t := by
  simp [steps, List.replicate_succ, runEvents, act, h]

theorem steps_zero (s : State) : steps 0 s = .next s := rfl

/-- An abort is of a run that is going on, and changes `run` alone (60 R181). -/
theorem abort_next {s t : State} (h : s.abort = .next t) : s.enabled = true ∧ t = s.setRun .aborted := by
  unfold State.abort at h
  split at h
  · cases h; exact ⟨‹_›, rfl⟩
  · cases h

/-- A start is the first one, and changes `started` alone (00 R11). -/
theorem start_next {s t : State} (h : s.start = .next t) : s.started = false ∧ t = { s with started := true } := by
  unfold State.start at h
  split at h
  · cases h
  · rename_i hst
    cases h
    exact ⟨by simpa using hst, rfl⟩

end Sys2Proof.Machine
end

