-- ==== Sys2Proof/Laws/PerInstr.lean ====
section
/-! SUPPORT. Per instruction: its word, in the default numbering, lies in its row of spec/opcode_table.json. -/

namespace Sys2Proof.Laws.TableRow

/-- The encoder's word has the row's `match` under the row's `mask`. For `trap` and `jmp` this is the row they are
refined from, whatever their operand. -/
def Statement (i : Instr) : Prop :=
  encode Machine.defaultConfig i &&& (tableRow i).2 = (tableRow i).1

/-- Masking a word bit by bit. -/
theorem mask_ext {w k m : Word} (h : ∀ j : Fin 16, (w[j] && k[j]) = m[j]) : w &&& k = m := by
  apply BitVec.eq_of_getElem_eq
  intro j hj
  simpa using h ⟨j, hj⟩

theorem addReg (d : Reg) (s : Reg) (t : Reg) : Statement (.addReg d s t) := by
  apply mask_ext
  intro j
  fin_cases j <;> simp [encode, encOPR, place, Machine.defaultConfig, Machine.defaultOpcodes, tableRow]

theorem addImm (d : Reg) (s : Reg) (i : BitVec 5) : Statement (.addImm d s i) := by
  apply mask_ext
  intro j
  fin_cases j <;> simp [encode, encOPI, place, Machine.defaultConfig, Machine.defaultOpcodes, tableRow]

theorem andReg (d : Reg) (s : Reg) (t : Reg) : Statement (.andReg d s t) := by
  apply mask_ext
  intro j
  fin_cases j <;> simp [encode, encOPR, place, Machine.defaultConfig, Machine.defaultOpcodes, tableRow]

theorem andImm (d : Reg) (s : Reg) (i : BitVec 5) : Statement (.andImm d s i) := by
  apply mask_ext
  intro j
  fin_cases j <;> simp [encode, encOPI, place, Machine.defaultConfig, Machine.defaultOpcodes, tableRow]

theorem notReg (d : Reg) (s : Reg) : Statement (.notReg d s) := by
  apply mask_ext
  intro j
  fin_cases j <;> simp [encode, encB6, place, Machine.defaultConfig, Machine.defaultOpcodes, tableRow]

theorem br (n : BitVec 3) (o : BitVec 9) : Statement (.br n o) := by
  apply mask_ext
  intro j
  fin_cases j <;> simp [encode, encPC9, place, Machine.defaultConfig, Machine.defaultOpcodes, tableRow]

theorem jmp (b : Reg) : Statement (.jmp b) := by
  apply mask_ext
  intro j
  fin_cases j <;> simp [encode, encB6, place, Machine.defaultConfig, Machine.defaultOpcodes, tableRow]

theorem ret : Statement .ret := by unfold Statement; decide

theorem jsr (o : BitVec 11) : Statement (.jsr o) := by
  apply mask_ext
  intro j
  fin_cases j <;> simp [encode, encJ11, place, Machine.defaultConfig, Machine.defaultOpcodes, tableRow]

theorem jsrr (b : Reg) : Statement (.jsrr b) := by
  apply mask_ext
  intro j
  fin_cases j <;> simp [encode, encJRR, place, Machine.defaultConfig, Machine.defaultOpcodes, tableRow]

theorem ld (d : Reg) (o : BitVec 9) : Statement (.ld d o) := by
  apply mask_ext
  intro j
  fin_cases j <;> simp [encode, encPC9, place, Machine.defaultConfig, Machine.defaultOpcodes, tableRow]

theorem ldi (d : Reg) (o : BitVec 9) : Statement (.ldi d o) := by
  apply mask_ext
  intro j
  fin_cases j <;> simp [encode, encPC9, place, Machine.defaultConfig, Machine.defaultOpcodes, tableRow]

theorem ldr (d : Reg) (b : Reg) (o : BitVec 6) : Statement (.ldr d b o) := by
  apply mask_ext
  intro j
  fin_cases j <;> simp [encode, encB6, place, Machine.defaultConfig, Machine.defaultOpcodes, tableRow]

theorem lea (d : Reg) (o : BitVec 9) : Statement (.lea d o) := by
  apply mask_ext
  intro j
  fin_cases j <;> simp [encode, encPC9, place, Machine.defaultConfig, Machine.defaultOpcodes, tableRow]

theorem st (r : Reg) (o : BitVec 9) : Statement (.st r o) := by
  apply mask_ext
  intro j
  fin_cases j <;> simp [encode, encPC9, place, Machine.defaultConfig, Machine.defaultOpcodes, tableRow]

theorem sti (r : Reg) (o : BitVec 9) : Statement (.sti r o) := by
  apply mask_ext
  intro j
  fin_cases j <;> simp [encode, encPC9, place, Machine.defaultConfig, Machine.defaultOpcodes, tableRow]

theorem str (r : Reg) (b : Reg) (o : BitVec 6) : Statement (.str r b o) := by
  apply mask_ext
  intro j
  fin_cases j <;> simp [encode, encB6, place, Machine.defaultConfig, Machine.defaultOpcodes, tableRow]

theorem trap (v : Byte) : Statement (.trap v) := by
  apply mask_ext
  intro j
  fin_cases j <;> simp [encode, encTV, place, Machine.defaultConfig, Machine.defaultOpcodes, tableRow]

theorem getc : Statement .getc := by unfold Statement; decide

theorem out : Statement .out := by unfold Statement; decide

theorem puts : Statement .puts := by unfold Statement; decide

theorem inChar : Statement .inChar := by unfold Statement; decide

theorem putsp : Statement .putsp := by unfold Statement; decide

theorem halt : Statement .halt := by unfold Statement; decide

theorem rti : Statement .rti := by unfold Statement; decide

theorem res : Statement .res := by unfold Statement; decide

end Sys2Proof.Laws.TableRow
end

