-- ==== Sys2Proof/Tests/Slice0.lean ====
section
/-! SUPPORT. The model's own tests. Expected values are the spec's (spec/95_test_vectors.md, and the examples of the
section files it repeats), or worked out by hand from the rule a comment names. Then, for each statement with hypotheses
in Certificates/Slice0/Obligations.lean, a witness that meets them. -/

namespace Sys2Proof.Tests

open Sys2Proof.Machine

/-! ## Helpers -/

/-- A started machine: the reset state with `pc`, some registers and some cells given. -/
def at_ (pc : Word) (regs : List (Reg × Word)) (cells : List (Word × Word)) : State :=
  regs.foldl (fun s p => s.setReg p.1 p.2)
    (cells.foldl (fun s p => s.memWrite p.1 p.2) { State.reset with started := true, pc := pc })

/-- `s` with the host's next answers fixed. -/
def answers (s : State) (q : List (Option Byte)) : State := { s with answers := q }

/-- `s` in the routine state `t`. -/
def inTe (s : State) (t : TrapEngine) : State := s.setTe t

/-- `s` with `UNKNOWN_TRAP = fault`. -/
def faulting (s : State) : State := { s with cfg := { s.cfg with unknownTrap := .fault } }

/-- `s` with `TRAP_READ_POLLS = true`. -/
def polling (s : State) : State := { s with cfg := { s.cfg with trapReadPolls := true } }

/-- An outcome is a next state that meets `p`. -/
def shows (r : Result) (p : State → Bool) : Bool :=
  match r with
  | .next s => p s
  | .fault _ => false
  | .refused _ => false

theorem next_of_shows {r : Result} {p : State → Bool} (h : shows r p = true) : ∃ t, r = .next t ∧ p t = true := by
  cases r with
  | next s => exact ⟨s, rfl, h⟩
  | fault _ => cases h
  | refused _ => cases h

/-- An outcome is the LoadError `k`. -/
def failsWith (k : LoadErrorKind) (r : Result) : Bool :=
  match r with
  | .next _ => false
  | .fault (.loadError j) => j = k
  | .refused _ => false

/-! ## Well-formedness -/

/-- The word of `JMP R7` is RET's (42 R101), the vector 0x20 is GETC's (44 R132); a vector outside the table is TRAP's. -/
theorem test_illformed_refused :
    (Instr.jmp 7).wf defaultConfig = false ∧ (Instr.trap 0x20).wf defaultConfig = false ∧
    (Instr.trap 0x25).wf defaultConfig = false ∧ (Instr.jmp 6).wf defaultConfig = true ∧
    (Instr.trap 0x1F).wf defaultConfig = true ∧ (Instr.trap 0x26).wf defaultConfig = true := by decide

/-- Parameters the spec does not admit: two opcodes of one number; KBSR at KBDR's address (20 R49). -/
theorem test_illformed_config_refused :
    ¬({ defaultConfig with opcodeOf := { defaultOpcodes with res := 0x8 } } : Config).wf ∧
    ¬({ defaultConfig with kbdrAddr := 0xFE00 } : Config).wf := by decide

/-! ## Decoding: words written out from 30 R62, R65 -/

theorem test_decode_operate :
    decode defaultConfig 0b0001_000_001_0_00_010 = .ok (.addReg 0 1 2) ∧
    decode defaultConfig 0b0001_011_100_1_10000 = .ok (.addImm 3 4 0b10000) ∧
    decode defaultConfig 0b0101_010_011_0_00_100 = .ok (.andReg 2 3 4) ∧
    decode defaultConfig 0b0101_001_010_1_00000 = .ok (.andImm 1 2 0) ∧
    decode defaultConfig 0b1001_011_100_111111 = .ok (.notReg 3 4) := by decide

theorem test_decode_control :
    decode defaultConfig 0b0000_101_100000001 = .ok (.br 0b101 0b100000001) ∧
    decode defaultConfig 0b1100_000_010_000000 = .ok (.jmp 2) ∧
    decode defaultConfig 0b1100_000_111_000000 = .ok .ret ∧
    decode defaultConfig 0b0100_1_10000000001 = .ok (.jsr 0b10000000001) ∧
    decode defaultConfig 0b0100_0_00_011_000000 = .ok (.jsrr 3) := by decide

theorem test_decode_load_store :
    decode defaultConfig 0b0010_010_000000001 = .ok (.ld 2 1) ∧
    decode defaultConfig 0b1010_010_000000001 = .ok (.ldi 2 1) ∧
    decode defaultConfig 0b0110_001_101_100000 = .ok (.ldr 1 5 0b100000) ∧
    decode defaultConfig 0b1110_111_111111111 = .ok (.lea 7 0b111111111) ∧
    decode defaultConfig 0b0011_001_000000000 = .ok (.st 1 0) ∧
    decode defaultConfig 0b1011_101_000000001 = .ok (.sti 5 1) ∧
    decode defaultConfig 0b0111_001_110_000011 = .ok (.str 1 6 3) := by decide

theorem test_decode_trap_and_reserved :
    decode defaultConfig 0b1111_0000_00100000 = .ok .getc ∧
    decode defaultConfig 0b1111_0000_00100001 = .ok .out ∧
    decode defaultConfig 0b1111_0000_00100010 = .ok .puts ∧
    decode defaultConfig 0b1111_0000_00100011 = .ok .inChar ∧
    decode defaultConfig 0b1111_0000_00100100 = .ok .putsp ∧
    decode defaultConfig 0b1111_0000_00100101 = .ok .halt ∧
    decode defaultConfig 0b1111_0000_00110000 = .ok (.trap 0x30) ∧
    decode defaultConfig 0b1000_000000000000 = .ok .rti ∧
    decode defaultConfig 0b1101_000000000000 = .ok .res := by decide

/-- Ignored bits (30 R66; the words of 95 V3, V5, V7, V8). -/
theorem test_decode_ignored_bits :
    decode defaultConfig 0x1058 = .ok (.addReg 0 1 0) ∧ decode defaultConfig 0x9040 = .ok (.notReg 0 1) ∧
    decode defaultConfig 0xC1C7 = .ok .ret ∧ decode defaultConfig 0x403F = .ok (.jsrr 0) ∧
    decode defaultConfig 0x47FF = .ok (.jsrr 7) ∧ decode defaultConfig 0xFF25 = .ok .halt ∧
    decode defaultConfig 0x8FFF = .ok .rti ∧ decode defaultConfig 0xDFFF = .ok .res := by decide

/-- 95's words again, from the encoder (NOT with bits 5..0 ones, 30 R76). -/
theorem test_encode :
    encode defaultConfig (.addImm 0 1 0b11110) = 0x107E ∧ encode defaultConfig (.notReg 3 4) = 0x973F ∧
    encode defaultConfig .ret = 0xC1C0 ∧ encode defaultConfig (.jsr 1) = 0x4801 ∧
    encode defaultConfig (.jsrr 3) = 0x40C0 ∧ encode defaultConfig (.str 1 6 3) = 0x7383 ∧
    encode defaultConfig (.br 0b010 2) = 0x0402 ∧ encode defaultConfig .halt = 0xF025 := by decide

/-- The host's two entry points: a row's word is read, and is the first instruction run after reset (ADD: R0 + 1). -/
theorem test_table_word :
    decodeTableWord 16 0xF025 = some .halt ∧ decodeTableWord 16 0xC1C0 = some .ret ∧
    shows (step (State.reset.withFetchWord 16 0x1021)) (fun t => t.reg 0 == 1 && t.pc == 1) = true := by decide

/-! ## Operands and flags (95 E1, V1, V2) -/

theorem test_sext :
    sext 0b10000#5 = 0xFFF0 ∧ sext 0b01111#5 = 0x000F ∧ sext 0b100000#6 = 0xFFE0 ∧ sext 0x1FD#9 = 0xFFFD ∧
    sext 0x400#11 = 0xFC00 ∧ sext 0x3FF#11 = 0x03FF := by decide

theorem test_flags :
    flagsOf defaultConfig 0 = 0b010 ∧ flagsOf defaultConfig 1 = 0b001 ∧ flagsOf defaultConfig 0x7FFF = 0b001 ∧
    flagsOf defaultConfig 0x8000 = 0b100 ∧ flagsOf defaultConfig 0xFFFF = 0b100 := by decide

/-! ## Operate (95 V3, E3) -/

theorem test_add_signed_overflow_wraps :
    shows (step (at_ 0x3000 [(1, 0x7FFF), (2, 1)] [(0x3000, 0x1042)]))
      (fun t => t.reg 0 == 0x8000 && t.cond == 0b100 && t.pc == 0x3001) = true := by decide

theorem test_add_same_register :
    shows (step (at_ 0x3000 [(1, 0x4000)] [(0x3000, 0x1241)])) (fun t => t.reg 1 == 0x8000) = true := by decide

theorem test_add_immediate_minus_two :
    shows (step (at_ 0x3000 [(1, 3)] [(0x3000, 0x107E)])) (fun t => t.reg 0 == 1 && t.cond == 0b001) = true := by
  decide

theorem test_add_least_immediate :
    shows (step (at_ 0x3000 [(4, 5)] [(0x3000, 0x1730)])) (fun t => t.reg 3 == 0xFFF5 && t.cond == 0b100) = true := by
  decide

theorem test_and_register :
    shows (step (at_ 0x3000 [(3, 0xF0F0), (4, 0x8F0F)] [(0x3000, 0x54C4)]))
      (fun t => t.reg 2 == 0x8000 && t.cond == 0b100) = true := by decide

theorem test_and_immediate_extends :
    shows (step (at_ 0x3000 [(3, 0xABCD)] [(0x3000, 0x54F0)])) (fun t => t.reg 2 == 0xABC0) = true := by decide

theorem test_not_same_register :
    shows (step (at_ 0x3000 [(7, 0x8000)] [(0x3000, 0x9FFF)])) (fun t => t.reg 7 == 0x7FFF && t.cond == 0b001) = true := by
  decide

/-! ## Control (95 V4, V5, E5) -/

theorem test_br_wraps :
    shows (step ((at_ 0xFFFF [] [(0xFFFF, 0x0E01)]).setCond 0b001)) (fun t => t.pc == 1 && t.cond == 0b001) = true := by
  decide

/-- Even `BRnzp` is not taken while no flag is set. -/
theorem test_br_no_flag : shows (step (at_ 0x3000 [] [(0x3000, 0x0E04)])) (fun t => t.pc == 0x3001) = true := by decide

theorem test_jmp : shows (step (at_ 0x3000 [(2, 0x1234)] [(0x3000, 0xC080)])) (fun t => t.pc == 0x1234) = true := by
  decide

theorem test_ret : shows (step (at_ 0x3000 [(7, 0x3001)] [(0x3000, 0xC1C0)])) (fun t => t.pc == 0x3001) = true := by
  decide

theorem test_jsr_least_offset :
    shows (step (at_ 0x3000 [] [(0x3000, 0x4C00)])) (fun t => t.reg 7 == 0x3001 && t.pc == 0x2C01) = true := by decide

theorem test_jsr_link_wraps :
    shows (step (at_ 0xFFFF [] [(0xFFFF, 0x4800)])) (fun t => t.reg 7 == 0 && t.pc == 0) = true := by decide

theorem test_jsrr :
    shows (step (at_ 0x3000 [(3, 0x5000)] [(0x3000, 0x40C0)])) (fun t => t.reg 7 == 0x3001 && t.pc == 0x5000) = true := by
  decide

theorem test_jsrr_r7_reads_the_link :
    shows (step (at_ 0x3000 [(7, 0x5000)] [(0x3000, 0x41C0)])) (fun t => t.reg 7 == 0x3001 && t.pc == 0x3001) = true := by
  decide

/-! ## Loads and stores (95 V6, E4) -/

theorem test_ld_polls_kbsr :
    shows (step (answers (at_ 0xFDFF [] [(0xFDFF, 0x2000)]) [some 0x0D]))
      (fun t => t.reg 0 == 0x8000 && t.cell 0xFE00 == 0x8000 && t.cell 0xFE02 == 0x0D && t.answers == []) = true := by
  decide

theorem test_ld_kbdr_does_not_poll :
    shows (step (answers (at_ 0xFE01 [] [(0xFE01, 0x2000), (0xFE02, 0x61)]) [some 0x62]))
      (fun t => t.reg 0 == 0x61 && t.cell 0xFE00 == 0 && t.answers == [some 0x62]) = true := by decide

theorem test_ldi :
    shows (step (at_ 0x3000 [] [(0x3000, 0xA401), (0x3002, 0x3100), (0x3100, 0x1234)]))
      (fun t => t.reg 2 == 0x1234 && t.cond == 0b001) = true := by decide

theorem test_ldi_poll_finds_nothing :
    shows (step (answers (at_ 0x3000 [] [(0x3000, 0xA401), (0x3002, 0xFE00), (0xFE00, 0x8000)]) [none]))
      (fun t => t.reg 2 == 0 && t.cond == 0b010 && t.cell 0xFE00 == 0) = true := by decide

theorem test_ldr_wraps_below :
    shows (step (at_ 0x3000 [(5, 0x10)] [(0x3000, 0x6360), (0xFFF0, 0xBEEF)]))
      (fun t => t.reg 1 == 0xBEEF && t.cond == 0b100) = true := by decide

theorem test_ldr_dest_is_base :
    shows (step (at_ 0x3000 [(2, 0x4000)] [(0x3000, 0x6480), (0x4000, 9)])) (fun t => t.reg 2 == 9) = true := by decide

theorem test_lea_sets_flags :
    shows (step (at_ 0x3000 [] [(0x3000, 0xE100)])) (fun t => t.reg 0 == 0x2F01 && t.cond == 0b001) = true := by decide

theorem test_lea_reads_nothing :
    shows (step (answers (at_ 0xFDFF [] [(0xFDFF, 0xE000)]) [some 0x41]))
      (fun t => t.reg 0 == 0xFE00 && t.answers == [some 0x41]) = true := by decide

theorem test_st_into_the_next_instruction :
    shows (step (at_ 0x3000 [(1, 0x1021)] [(0x3000, 0x3200)])) (fun t => t.cell 0x3001 == 0x1021) = true := by decide

theorem test_sti :
    shows (step (at_ 0x3000 [(5, 0xCAFE)] [(0x3000, 0xBA01), (0x3002, 0x5000)]))
      (fun t => t.cell 0x5000 == 0xCAFE && t.cell 0x3002 == 0x5000) = true := by decide

theorem test_str : shows (step (at_ 0x3000 [(6, 0x5000), (1, 0x1111)] [(0x3000, 0x7383)]))
    (fun t => t.cell 0x5003 == 0x1111 && t.cond == 0) = true := by decide

theorem test_str_to_kbsr_is_plain :
    shows (step (answers (at_ 0x3000 [(0, 0x1234), (1, 0xFE00)] [(0x3000, 0x7040)]) [some 0x41]))
      (fun t => t.cell 0xFE00 == 0x1234 && t.answers == [some 0x41]) = true := by decide

/-! ## TRAP (95 V7): the instruction's step, and one engine step -/

theorem test_trap_unlisted_noop : shows (step (at_ 0x3000 [] [(0x3000, 0xF030)]))
    (fun t => t.reg 7 == 0x3001 && t.run == .running && t.te == .idle) = true := by decide

theorem test_trap_unlisted_fault : shows (step (faulting (at_ 0x3000 [] [(0x3000, 0xF030)])))
    (fun t => t.reg 7 == 0x3001 && t.run == .halted (.badTrap 0x30 0x3000)) = true := by decide

theorem test_getc_enters : shows (step (at_ 0x3000 [] [(0x3000, 0xF020)]))
    (fun t => t.reg 7 == 0x3001 && t.te == .getc && t.pc == 0x3001) = true := by decide

theorem test_getc_reads : shows (step (answers (inTe (at_ 0x3001 [(0, 0x1111)] []) .getc) [some 0x78]))
    (fun t => t.reg 0 == 0x78 && t.te == .idle && t.out == []) = true := by decide

theorem test_out_enters : shows (step (at_ 0x3000 [] [(0x3000, 0xF021)])) (fun t => t.te == .out) = true := by decide

theorem test_out_low_byte : shows (step (inTe (at_ 0x3001 [(0, 0x1241)] []) .out))
    (fun t => t.out == [0x41] && t.reg 0 == 0x1241) = true := by decide

theorem test_puts_enters : shows (step (at_ 0x3000 [(0, 0x4000)] [(0x3000, 0xF022)]))
    (fun t => t.te == .puts 0x4000) = true := by decide

/-- A cell with a zero low byte does not end the string. -/
theorem test_puts_zero_low_byte : shows (step (inTe (at_ 0x3001 [] [(0xFFFF, 0x0100)]) (.puts 0xFFFF)))
    (fun t => t.out == [0] && t.te == .puts 0) = true := by decide

theorem test_in_enters : shows (step (at_ 0x3000 [] [(0x3000, 0xF023)])) (fun t => t.te == .inPrompt 0) = true := by
  decide

/-- The prompt out (19 bytes), the character is read and will be echoed. -/
theorem test_in_reads : shows (step (answers (inTe (at_ 0x3001 [] []) (.inPrompt 19)) [some 0x71]))
    (fun t => t.reg 0 == 0x71 && t.te == .inEcho 0x71 && t.out == []) = true := by decide

theorem test_putsp_enters : shows (step (at_ 0x3000 [(0, 0x4000)] [(0x3000, 0xF024)]))
    (fun t => t.te == .putsp 0x4000 .low) = true := by decide

theorem test_putsp_high_byte : shows (step (inTe (at_ 0x3001 [] [(0x4000, 0x4241)]) (.putsp 0x4000 .high)))
    (fun t => t.out == [0x42] && t.te == .putsp 0x4001 .low) = true := by decide

theorem test_halt_enters : shows (step (at_ 0x3000 [] [(0x3000, 0xF025)]))
    (fun t => t.te == .halt 0 && t.run == .running && t.reg 7 == 0x3001) = true := by decide

theorem test_halt_ends : shows (step (inTe (at_ 0x3001 [] []) (.halt 5)))
    (fun t => t.run == .halted .haltTrap && t.te == .idle && t.pc == 0x3001) = true := by decide

/-! ## Reserved opcodes and the fetch (95 V8, V9) -/

theorem test_rti : shows (step (at_ 0x3004 [] [(0x3004, 0x8000)]))
    (fun t => t.run == .halted (.badOpcode 0x8 0x3004) && t.pc == 0x3005) = true := by decide

theorem test_res : shows (step (at_ 0x3000 [] [(0x3000, 0xDFFF)]))
    (fun t => t.run == .halted (.badOpcode 0xD 0x3000) && t.pc == 0x3001) = true := by decide

/-- The fetch polls, and the refreshed value 0x8000 is executed as RTI. -/
theorem test_fetch_polls : shows (step (answers (at_ 0xFE00 [] []) [some 0x61]))
    (fun t => t.run == .halted (.badOpcode 0x8 0xFE00) && t.cell 0xFE02 == 0x61 && t.pc == 0xFE01) = true := by decide

theorem test_fetch_poll_finds_nothing : shows (step (answers (at_ 0xFE00 [] [(0xFE00, 0x8000)]) [none]))
    (fun t => t.run == .running && t.cell 0xFE00 == 0 && t.pc == 0xFE01) = true := by decide

/-! ## Loading (95 V10, E6) -/

theorem test_load_image : shows (State.reset.loadImage (some [0x30, 0x00, 0x12, 0x34, 0xAB, 0xCD]))
    (fun t => t.cell 0x3000 == 0x1234 && t.cell 0x3001 == 0xABCD && t.pc == 0x3000) = true := by decide

theorem test_load_errors :
    failsWith .noOrigin (State.reset.loadImage (some [])) = true ∧
    failsWith .oddLength (State.reset.loadImage (some [0x30, 0x00, 0x12])) = true ∧
    failsWith .pastEnd (State.reset.loadImage (some [0xFF, 0xFF, 0x12, 0x34, 0x56, 0x78])) = true ∧
    failsWith .missingOrUnreadable (State.reset.loadImage none) = true := by decide

theorem test_load_at_the_top : shows (State.reset.loadImage (some [0xFF, 0xFF, 0x12, 0x34]))
    (fun t => t.cell 0xFFFF == 0x1234 && t.pc == 0xFFFF) = true := by decide

theorem test_boot_last_origin : shows (State.reset.boot (some [0x40, 0x00, 0x00, 0x05]) [some [0x30, 0x00, 0xF0, 0x25]])
    (fun t => t.pc == 0x3000 && t.cell 0x4000 == 5 && t.cell 0x3000 == 0xF025 && t.started) = true := by decide

/-! ## Witnesses: for each statement with hypotheses, inputs that meet them together, at the bounds of each clause -/

theorem witness_DecodeEncodeRoundTrip :
    defaultConfig.wf ∧ (Instr.jmp 6).wf defaultConfig = true ∧ (Instr.trap 0x26).wf defaultConfig = true := by decide

theorem witness_DecodeKeepsReadBitsAndIgnoresTheRest :
    decode defaultConfig 0x1058 = .ok (.addReg 0 1 0) ∧
    0x1040#16 &&& usedMask (.addReg 0 1 0) = 0x1058#16 &&& usedMask (.addReg 0 1 0) := by decide

theorem witness_EveryWordDecodes : defaultConfig.wf := by decide

/-- The `match` and `mask` of every row of the table. -/
def rows : List (Word × Word) :=
  [(0x1000, 0xF020), (0x1020, 0xF020), (0x5000, 0xF020), (0x5020, 0xF020), (0x9000, 0xF000), (0x0000, 0xF000)] ++
  [(0xC1C0, 0xF1C0), (0x4800, 0xF800), (0x4000, 0xF800), (0x2000, 0xF000), (0xA000, 0xF000), (0x6000, 0xF000)] ++
  [(0xE000, 0xF000), (0x3000, 0xF000), (0xB000, 0xF000), (0x7000, 0xF000), (0x8000, 0xF000), (0xD000, 0xF000)] ++
  [(0xF020, 0xF0FF), (0xF021, 0xF0FF), (0xF022, 0xF0FF), (0xF023, 0xF0FF), (0xF024, 0xF0FF), (0xF025, 0xF0FF)]

/-- The lowest and the highest word of each row; for JMP and TRAP, of those no refining row takes. -/
theorem witness_DecodeFollowsOpcodeTable :
    rows.all (fun r => r.1 &&& r.2 == r.1 && (r.1 ||| ~~~r.2) &&& r.2 == r.1) = true ∧
    [0xC000#16, 0xCFBF].all (fun w => w &&& 0xF000 == 0xC000 && w &&& 0xF1C0 != 0xC1C0) = true ∧
    [0xF000#16, 0xF01F, 0xF026, 0xFFFF].all (fun w => w &&& 0xF000 == 0xF000 &&
      [0x20#8, 0x21#8, 0x22#8, 0x23#8, 0x24#8, 0x25#8].all (fun v => bits w 0 8 != v)) = true :=
  ⟨by decide, by decide, by decide⟩

theorem witness_StepRunsTheDecodedInstruction :
    ¬(State.reset.started = true ∧ State.reset.run = .running) ∧
    ((inTe (at_ 0 [] []) .getc).started = true ∧ (inTe (at_ 0 [] []) .getc).run = .running ∧
      (inTe (at_ 0 [] []) .getc).te ≠ .idle) ∧
    ((at_ 0xFFFF [] [(0xFFFF, 0x1021)]).started = true ∧ (at_ 0xFFFF [] [(0xFFFF, 0x1021)]).run = .running ∧
      (at_ 0xFFFF [] [(0xFFFF, 0x1021)]).te = .idle ∧
      decode defaultConfig ((at_ 0xFFFF [] [(0xFFFF, 0x1021)]).memRead 0xFFFF).1 = .ok (.addImm 0 0 1)) := by decide

theorem witness_StoppedRunStaysStopped : ((at_ 0 [] []).setRun .aborted).run ≠ .running ∧
    ∃ t, runEvents [.core, .answer none] ((at_ 0 [] []).setRun .aborted) = .next t ∧ (t.run == .aborted) = true :=
  ⟨by decide, next_of_shows (by decide)⟩

theorem witness_OnlyTheseStepsHalt : ∀ s ∈ [inTe (at_ 0x3001 [] []) (.halt 5), at_ 0xFFFF [] [(0xFFFF, 0x8000)],
      at_ 0 [] [(0, 0xDFFF)], faulting (at_ 0 [] [(0, 0xF026)])],
    s.cfg.wf ∧ s.run = .running ∧ shows (step s) (fun t => t.run != .running) = true := by decide

theorem witness_SignExtensionWidens : 1 ≤ 1 ∧ 1 ≤ 16 ∧ 16 ≤ 16 ∧
    (0b1#1).getLsbD 0 = true ∧ (0x8000#16).getLsbD 15 = true ∧ (0b01111#5).getLsbD 4 ≠ true := by decide

theorem witness_SetccWritesTheOneFlag :
    ((at_ 0 [] []).reg 7).toInt = 0 ∧ ((at_ 0 [(7, 0xFFFF)] []).reg 7).toInt < 0 ∧
    ((at_ 0 [(7, 0x8000)] []).reg 7).toInt < 0 ∧ 0 < ((at_ 0 [(7, 1)] []).reg 7).toInt ∧
    0 < ((at_ 0 [(7, 0x7FFF)] []).reg 7).toInt ∧ (at_ 0 [] []).cfg = defaultConfig ∧
    destOf (.lea 0 0) = some 0 ∧ shows (exec (.lea 0 0) (at_ 0 [] [])) (fun _ => true) = true := by decide

theorem witness_AddBothModes : defaultConfig.wf ∧
    (opcodeBits 0x1FDF = defaultConfig.opcodeOf.add ∧ bits 0x1FDF 5 1 = 0) ∧
    (opcodeBits 0x1020 = defaultConfig.opcodeOf.add ∧ bits 0x1020 5 1 = 1) := by decide

theorem witness_AndBothModes : defaultConfig.wf ∧
    (opcodeBits 0x5FDF = defaultConfig.opcodeOf.and ∧ bits 0x5FDF 5 1 = 0) ∧
    (opcodeBits 0x5020 = defaultConfig.opcodeOf.and ∧ bits 0x5020 5 1 = 1) := by decide

theorem witness_NotComplements : defaultConfig.wf ∧ opcodeBits 0x9040 = defaultConfig.opcodeOf.not := by decide

theorem witness_BranchOnFlags : defaultConfig.wf ∧ opcodeBits 0x0FFF = defaultConfig.opcodeOf.br ∧
    0b111#3 &&& ((at_ 0 [] []).setCond 0b100).cond ≠ 0 ∧ 0b111#3 &&& (at_ 0 [] []).cond = 0 := by decide

theorem witness_JumpThroughRegister : defaultConfig.wf ∧ opcodeBits 0xC1C7 = defaultConfig.opcodeOf.jmp ∧
    bits 0xC1C7 6 3 = 7 ∧ opcodeBits 0xC000 = defaultConfig.opcodeOf.jmp ∧ bits 0xC000 6 3 ≠ 7 := by decide

theorem witness_JsrCalls :
    defaultConfig.wf ∧ opcodeBits 0x4C00 = defaultConfig.opcodeOf.jsr ∧ bits 0x4C00 11 1 = 1 := by decide

theorem witness_JsrrCalls :
    defaultConfig.wf ∧ opcodeBits 0x47FF = defaultConfig.opcodeOf.jsr ∧ bits 0x47FF 11 1 = 0 ∧
    (7 : Reg) = 7 ∧ (6 : Reg) ≠ 7 := by decide

theorem witness_CallThenReturn : ∀ i ∈ [Instr.jsr 1, .jsrr 7, .trap 0x30, .getc, .halt],
    7 ∈ writtenRegs i ∧ destOf i = none ∧
    shows (exec i (at_ 0x3001 [] [])) (fun t => (at_ 0 [(7, 0x3001)] []).reg 7 == t.reg 7) = true := by decide

theorem witness_PollingReadRefreshesThePair :
    0xFE01#16 ≠ (at_ 0 [] []).cfg.kbsrAddr ∧ 0xFE00#16 = (at_ 0 [] []).cfg.kbsrAddr ∧
    (at_ 0 [] []).cfg.kbsrAddr ≠ (at_ 0 [] []).cfg.kbdrAddr ∧
    (answers (at_ 0 [] []) [some 0xFF]).conIn.1 = some 0xFF ∧ (answers (at_ 0 [] []) [none]).conIn.1 = none := by decide

theorem witness_ConInTakesTheNextAnswer :
    (answers (at_ 0 [] []) [some 0x61, none]).answers = some 0x61 :: [none] ∧ (at_ 0 [] []).answers = [] := by decide

/-- A store, and a load of KBSR seen from a cell that is neither keyboard cell. -/
theorem witness_MemoryFrameOfEveryInstruction :
    (shows (exec (.st 1 0) (at_ 0x3001 [] [])) (fun _ => true) = true ∧
      (∀ ea v, storeOf (.st 1 0) (at_ 0x3001 [] []) = some (ea, v) → (0x3002 : Word) ≠ ea)) ∧
    (shows (exec (.ld 0 0) (answers (at_ 0xFE00 [] []) [none])) (fun _ => true) = true ∧
      (at_ 0xFE00 [] []).cfg.kbsrAddr ∈ readAddrs (.ld 0 0) (answers (at_ 0xFE00 [] []) [none]) ∧
      0xFE01#16 ≠ (at_ 0xFE00 [] []).cfg.kbsrAddr ∧ 0xFE01#16 ≠ (at_ 0xFE00 [] []).cfg.kbdrAddr) := by
  refine ⟨⟨by decide, ?_⟩, by decide⟩
  intro ea v h
  have h : pcRelative (0x3001#16) (0#9) = ea := congrArg Prod.fst (Option.some.inj h)
  subst h
  decide

/-- `ST R1, #0` stores into the next instruction, which the pc then is. -/
theorem witness_StoreSeenByNextFetch :
    storeOf (.st 1 0) (at_ 0x3001 [(1, 0x1021)] []) = some (0x3001, 0x1021) ∧
    shows (exec (.st 1 0) (at_ 0x3001 [(1, 0x1021)] []))
      (fun t => t.pc == 0x3001 && 0x3001 != t.cfg.kbsrAddr) = true ∧
    shows (exec (.st 1 0) (at_ 0xFE00 [] [])) (fun t => t.pc == t.cfg.kbsrAddr) = true := by decide

theorem witness_LoadPcRelative : defaultConfig.wf ∧ opcodeBits 0x2FFF = defaultConfig.opcodeOf.ld := by decide
theorem witness_LoadIndirect : defaultConfig.wf ∧ opcodeBits 0xAFFF = defaultConfig.opcodeOf.ldi := by decide
theorem witness_LoadBaseOffset : defaultConfig.wf ∧ opcodeBits 0x6FFF = defaultConfig.opcodeOf.ldr := by decide
theorem witness_LoadEffectiveAddress : defaultConfig.wf ∧ opcodeBits 0xEFFF = defaultConfig.opcodeOf.lea := by decide
theorem witness_StorePcRelative : defaultConfig.wf ∧ opcodeBits 0x3FFF = defaultConfig.opcodeOf.st := by decide
theorem witness_StoreIndirect : defaultConfig.wf ∧ opcodeBits 0xBFFF = defaultConfig.opcodeOf.sti := by decide
theorem witness_StoreBaseOffset : defaultConfig.wf ∧ opcodeBits 0x7FFF = defaultConfig.opcodeOf.str := by decide

theorem witness_TrapEntersTheRoutine : defaultConfig.wf ∧ State.reset.cfg.wf ∧
    (opcodeBits 0xFF20 = defaultConfig.opcodeOf.trap ∧ bits 0xFF20 0 8 = defaultConfig.trapvecOf.vec .getc) ∧
    (opcodeBits 0xF025 = defaultConfig.opcodeOf.trap ∧ bits 0xF025 0 8 = defaultConfig.trapvecOf.vec .halt) :=
  ⟨default_wf, default_wf, by decide, by decide⟩

/-- The vectors next to the table and at the ends of the range. -/
theorem witness_UnlistedTrapVector : defaultConfig.wf ∧
    [0xF000#16, 0xF01F, 0xF026, 0xFFFF].all (fun w => opcodeBits w == defaultConfig.opcodeOf.trap &&
      Routine.all.all (fun r => bits w 0 8 != defaultConfig.trapvecOf.vec r)) = true ∧
    (at_ 0 [] []).cfg.unknownTrap = .noop ∧ (faulting (at_ 0 [] [])).cfg.unknownTrap = .fault :=
  ⟨default_wf, by decide, rfl, rfl⟩

theorem witness_every_routine_is_listed (r : Routine) : r ∈ Routine.all := routine_mem_all r

theorem witness_GetcReadsOneCharacter (a : Option Byte) :
    InRoutine .getc (answers (inTe (at_ 0 [] []) .getc) [a]) ∧
    (answers (inTe (at_ 0 [] []) .getc) [a]).conIn.1 = a := ⟨⟨rfl, rfl⟩, rfl⟩

theorem witness_OutWritesTheLowByte : InRoutine .out (inTe (at_ 0 [] []) .out) := ⟨rfl, rfl⟩

theorem witness_PutsStep : InRoutine (.puts 0xFFFF) (inTe (at_ 0 [] []) (.puts 0xFFFF)) ∧
    (at_ 0 [] []).cell 0xFFFF = 0 ∧ (at_ 0 [] [(0xFFFF, 0x100)]).cell 0xFFFF ≠ 0 ∧
    (polling (at_ 0 [] [])).cfg.trapReadPolls = true := ⟨⟨rfl, rfl⟩, by decide⟩

theorem witness_PutspStep : InRoutine (.putsp 0xFFFF .high) (inTe (at_ 0 [] []) (.putsp 0xFFFF .high)) ∧
    ((at_ 0 [] [(0xFFFF, 0x00FF)]).cell 0xFFFF >>> 8).setWidth 8 = 0#8 ∧
    ((at_ 0 [] [(0xFFFF, 0x0100)]).cell 0xFFFF >>> 8).setWidth 8 ≠ 0#8 := ⟨⟨rfl, rfl⟩, by decide⟩

/-- The prompt's first and last byte, the read after it, and the echo. -/
theorem witness_InPromptsReadsAndEchoes :
    (∀ k ∈ [0, 18], defaultConfig.inPrompt[k]? ≠ none) ∧ defaultConfig.inPrompt.length ≤ 19 ∧
    (∀ k, InRoutine (.inPrompt k) (inTe (at_ 0 [] []) (.inPrompt k))) ∧
    (∀ a, (answers (inTe (at_ 0 [] []) (.inPrompt 19)) [a]).conIn.1 = a) ∧
    InRoutine (.inEcho 0x71) (inTe (at_ 0 [] []) (.inEcho 0x71)) :=
  ⟨by decide, by decide, fun _ => ⟨rfl, rfl⟩, fun _ => rfl, rfl, rfl⟩

theorem witness_InRunsToCompletion (a : Option Byte) :
    InRoutine (.inPrompt 0) (answers (inTe (at_ 0 [] []) (.inPrompt 0)) [a]) ∧
    (answers (inTe (at_ 0 [] []) (.inPrompt 0)) [a]).answers = a :: [] := ⟨⟨rfl, rfl⟩, rfl⟩

theorem witness_HaltWritesTheNoticeAndHalts : InRoutine (.halt 0) (inTe (at_ 0 [] []) (.halt 0)) ∧
    5 ≤ (inTe (at_ 0 [] []) (.halt 0)).cfg.haltNotice.length ∧ (at_ 0x3001 [] []).enabled = true :=
  ⟨⟨rfl, rfl⟩, by decide⟩

/-- PUTS at 0xFFFF. -/
def stringAt (cells : List (Word × Word)) : State := inTe (at_ 0x3001 [] cells) (.puts 0xFFFF)

/-- The empty string, and one of two cells across the end of memory. -/
theorem witness_PutsWritesTheString :
    (InRoutine (.puts 0xFFFF) (stringAt []) ∧ (stringAt []).cfg.trapReadPolls = false ∧
      (∀ k < 0, (stringAt []).cell (0xFFFF + BitVec.ofNat 16 k) ≠ 0) ∧
      (stringAt []).cell (0xFFFF + BitVec.ofNat 16 0) = 0) ∧
    (InRoutine (.puts 0xFFFF) (stringAt [(0xFFFF, 0x58), (0, 0x59)]) ∧
      (stringAt [(0xFFFF, 0x58), (0, 0x59)]).cfg.trapReadPolls = false ∧
      (∀ k < 2, (stringAt [(0xFFFF, 0x58), (0, 0x59)]).cell (0xFFFF + BitVec.ofNat 16 k) ≠ 0) ∧
      (stringAt [(0xFFFF, 0x58), (0, 0x59)]).cell (0xFFFF + BitVec.ofNat 16 2) = 0) :=
  ⟨⟨⟨rfl, rfl⟩, rfl, by decide, by decide⟩, ⟨⟨rfl, rfl⟩, rfl, by decide, by decide⟩⟩

/-- PUTSP at 0x4000, on one whole cell and then `last`. -/
def packed (last : Word) : State := inTe (at_ 0x3001 [] [(0x4000, 0x4241), (0x4001, last)]) (.putsp 0x4000 .low)

/-- A last cell whose low byte is zero, and one whose high byte alone is. -/
theorem witness_PutspWritesThePackedString :
    (InRoutine (.putsp 0x4000 .low) (packed 0x4300) ∧ (packed 0x4300).cfg.trapReadPolls = false ∧
      (∀ k < 1, ((packed 0x4300).cell (0x4000 + BitVec.ofNat 16 k)).setWidth 8 ≠ 0#8 ∧
        ((packed 0x4300).cell (0x4000 + BitVec.ofNat 16 k) >>> 8).setWidth 8 ≠ 0#8) ∧
      ((packed 0x4300).cell (0x4000 + BitVec.ofNat 16 1)).setWidth 8 = 0#8) ∧
    (InRoutine (.putsp 0x4000 .low) (packed 0x43) ∧ (packed 0x43).cfg.trapReadPolls = false ∧
      (∀ k < 1, ((packed 0x43).cell (0x4000 + BitVec.ofNat 16 k)).setWidth 8 ≠ 0#8 ∧
        ((packed 0x43).cell (0x4000 + BitVec.ofNat 16 k) >>> 8).setWidth 8 ≠ 0#8) ∧
      ((packed 0x43).cell (0x4000 + BitVec.ofNat 16 1) >>> 8).setWidth 8 = 0#8) :=
  ⟨⟨⟨rfl, rfl⟩, rfl, by decide, by decide⟩, ⟨⟨rfl, rfl⟩, rfl, by decide, by decide⟩⟩

/-- Every cell listed, with the value `v`. -/
def fullMem (v : Word) : Mem := (List.range' 0 65536).map (fun k => (k, v))

theorem fullMem_read (v a : Word) : (fullMem v).read a = v := by
  have h : ∀ n i, i ≤ a.toNat → a.toNat < i + n → memGet ((List.range' i n).map (fun k => (k, v))) a.toNat = v := by
    intro n
    induction n with
    | zero => intro i h1 h2; omega
    | succ n ih =>
      intro i h1 h2
      simp only [List.range'_succ, List.map_cons, memGet]
      split
      · rfl
      · exact ih (i + 1) (by omega) (by omega)
  exact h 65536 0 (Nat.zero_le _) (by simpa using a.isLt)

/-- Every cell 0x4141 and the engine in `t`. -/
def endless (t : TrapEngine) : State := { inTe (at_ 0x3001 [] []) t with mem := fullMem 0x4141 }

theorem witness_UnterminatedStringNeverCompletes :
    (InRoutine (.puts 0) (endless (.puts 0)) ∧ (endless (.puts 0)).cfg.trapReadPolls = false ∧
      ∀ a, (endless (.puts 0)).cell a ≠ 0) ∧
    (InRoutine (.putsp 0 .low) (endless (.putsp 0 .low)) ∧ (endless (.putsp 0 .low)).cfg.trapReadPolls = false ∧
      ∀ a, ((endless (.putsp 0 .low)).cell a).setWidth 8 ≠ 0#8 ∧
        ((endless (.putsp 0 .low)).cell a >>> 8).setWidth 8 ≠ 0#8) := by
  refine ⟨⟨⟨rfl, rfl⟩, rfl, fun a => ?_⟩, ⟨⟨rfl, rfl⟩, rfl, fun a => ?_⟩⟩
  · rw [State.cell, endless, fullMem_read]; decide
  · rw [State.cell, endless, fullMem_read]; decide

theorem witness_UnterminatedString_poll_ends :
    let s := answers (polling (inTe (at_ 0 [] []) (.puts 0xFE00))) [none]
    s.cfg.trapReadPolls = true ∧ s.cfg.kbsrIdle = 0 ∧ s.conIn.1 = none ∧ InRoutine (.puts s.cfg.kbsrAddr) s :=
  ⟨rfl, rfl, rfl, rfl, rfl⟩

theorem witness_ReservedOpcodesAreFatal : defaultConfig.wf ∧
    opcodeBits 0x8FFF = defaultConfig.opcodeOf.rti ∧ opcodeBits 0xDFFF = defaultConfig.opcodeOf.res := by decide

theorem witness_OnlyTheseWriteCond :
    (shows (exec (.lea 0 0) (at_ 0 [] [])) (fun _ => true) = true ∧ destOf (.lea 0 0) = some 0) ∧
    (shows (exec (.trap 0x30) (at_ 0 [] [])) (fun _ => true) = true ∧ destOf (.trap 0x30) = none) := by decide

theorem witness_OnlyBranchReadsCond :
    (∀ nzp off, Instr.ldi 0 0 ≠ .br nzp off) ∧ destOf (.ldi 0 0) ≠ none ∧
    shows (exec (.ldi 0 0) (at_ 0 [] [])) (fun _ => true) = true := ⟨nofun, by decide⟩

theorem witness_RegisterReadsAndWritesAreTheTables :
    ((2 : Reg) ∉ readRegs (.addReg 0 1 1) ∧ shows (exec (.addReg 0 1 1) (at_ 0 [] [])) (fun _ => true) = true) ∧
    shows (step (answers (inTe (at_ 0 [] []) .getc) [some 1])) (fun t => t.reg 0 != 0) = true := by decide

theorem witness_OnlyRoutinesEmitBytes :
    shows (step (inTe (at_ 0 [] []) .out)) (fun t => t.out != []) = true ∧
    shows (step (at_ 0 [] [])) (fun t => t.out == []) = true := by decide

/-- GETC, IN's read, PUTS and PUTSP at KBSR with polling reads, a fetch from KBSR, a load of KBSR. -/
theorem witness_OnlyPollsAndGetcAndInTakeInput : ∀ s ∈ [inTe (at_ 0 [] []) .getc, inTe (at_ 0 [] []) (.inPrompt 19),
      polling (inTe (at_ 0 [] []) (.puts 0xFE00)), polling (inTe (at_ 0 [] []) (.putsp 0xFE00 .high)),
      at_ 0xFE00 [] [], at_ 0xFDFF [] [(0xFDFF, 0x2000)]],
    shows (step (answers s [none])) (fun t => t.answers != (answers s [none]).answers) = true := by decide

theorem witness_InputMattersOnlyWhereItIsTaken :
    shows (step (answers (at_ 0 [] []) [some 1])) (fun t => t.answers == [some 1] && t.draws == 0) = true := by decide

/-- One word at the last address. -/
theorem witness_LoadPlacesTheWords : State.reset.started = false ∧
    wordsOfBytes [0x12, 0x34] = some [0x1234] ∧
    ((0xFF#8 ++ 0xFF#8 : Word)).toNat + [(0x1234 : Word)].length ≤ 65536 := by decide

theorem witness_LoadFailsExactlyWhenTruncated : State.reset.started = false := rfl

theorem witness_StartAfterLoading : ∃ s, State.reset.boot (some [0x40, 0, 0, 5]) [some [0x30, 0]] = .next s ∧
    (s.pc == 0x3000) = true := next_of_shows (by decide)

theorem witness_AbortStopsBetweenSteps : (inTe (at_ 0 [] []) (.halt 2)).started = true ∧
    (inTe (at_ 0 [] []) (.halt 2)).run = .running := by decide

theorem witness_ExitStatusOfARun : State.reset.cfg.wf ∧
    ((at_ 0 [] []).setRun (.halted .haltTrap)).run = .halted .haltTrap ∧
    ((at_ 0 [] []).setRun (.halted (.badOpcode 8 0))).run = .halted (.badOpcode 8 0) ∧
    ((at_ 0 [] []).setRun .aborted).run = .aborted ∧
    State.reset.started = false ∧ State.reset.loadImage none = .fault (.loadError .missingOrUnreadable) :=
  ⟨default_wf, rfl, rfl, rfl, rfl, rfl⟩

/-- About to run an instruction, and in the last engine step of HALT. -/
theorem witness_StepKeepsTheInvariant :
    (Inv (at_ 0x3000 [] [(0x3000, 0x1021)]) ∧
      shows (step (at_ 0x3000 [] [(0x3000, 0x1021)])) (fun _ => true) = true) ∧
    (Inv (inTe (at_ 0x3001 [(7, 0x3001)] []) (.halt 5)) ∧
      shows (step (inTe (at_ 0x3001 [(7, 0x3001)] []) (.halt 5))) (fun _ => true) = true) :=
  ⟨⟨⟨default_wf, by decide, by decide, trivial, by decide, trivial, by decide⟩, by decide⟩,
    ⟨⟨default_wf, by decide, by decide, Nat.le_refl 5, by decide, trivial, by decide⟩, by decide⟩⟩

theorem witness_EveryRunKeepsTheInvariant : Inv State.reset ∧
    shows (runEvents [.load (some [0x30, 0, 0xD0, 0]), .start, .core, .answer none] State.reset)
      (fun t => t.run == .halted (.badOpcode 0xD 0x3000)) = true :=
  ⟨⟨default_wf, reset_mem_wf, by decide, trivial, by decide, trivial, by decide⟩, by decide⟩

end Sys2Proof.Tests
end

section
/-! Loading an image (spec/70_reset_and_hazards.md R193 to R197): the cells a run of contiguous stores leaves, and the
load as one equation on the state. -/

namespace Sys2Proof.Machine

/-- The address of word `k + 1` counted from `a` is that of word `k` counted from `a + 1`. -/
theorem add_one_add_ofNat (a : Word) (k : Nat) :
    a + 1 + BitVec.ofNat 16 k = a + BitVec.ofNat 16 (k + 1) := by
  bv_omega

/-- Within the 65536 addresses, counting on from `a` does not come back to `a`. -/
theorem ne_add_one_add_ofNat (a : Word) {k : Nat} (hk : k + 1 < 65536) : a ≠ a + 1 + BitVec.ofNat 16 k := by
  bv_omega

/-- Word `k` of at most 65536 contiguous ones is read back at `a + k`: no later store comes round to it (70 R195). -/
theorem storeWords_read (ws : List Word) : ∀ (a : Word) (m : Mem), ws.length ≤ 65536 →
    ∀ (k : Nat) (hk : k < ws.length), (storeWords ws a m).read (a + BitVec.ofNat 16 k) = ws[k] := by
  induction ws with
  | nil => exact fun _ _ _ _ hk => absurd hk (Nat.not_lt_zero _)
  | cons w ws ih =>
    intro a m hlen k hk
    simp only [List.length_cons] at hlen hk
    rw [storeWords]
    cases k with
    | zero =>
      have later_ne : ∀ j < ws.length, a ≠ a + 1 + BitVec.ofNat 16 j :=
        fun j hj => ne_add_one_add_ofNat a (by omega)
      simpa using (storeWords_read_ne ws (a + 1) (m.write a w) a later_ne).trans (read_write_same m a w)
    | succ k =>
      rw [← add_one_add_ofNat, List.getElem_cons_succ]
      exact ih (a + 1) _ (by omega) k (by omega)

/-- Before the start, an image of whole words that fits is loaded: its words into memory, its origin into the pc
(00 R10; 70 R195 to R197). -/
theorem loadImage_of_fits {s : State} {hi lo : Byte} {bs : List Byte} {ws : List Word} (hst : s.started = false)
    (hws : wordsOfBytes bs = some ws) (hfit : (hi ++ lo).toNat + ws.length ≤ 65536) :
    s.loadImage (some (hi :: lo :: bs)) =
      .next { s with mem := storeWords ws (hi ++ lo) s.mem, pc := hi ++ lo } := by
  have hroom : ¬ ws.length > 65536 - (hi ++ lo).toNat := by omega
  simp only [State.loadImage, hst, hws, State.loadWords, if_neg hroom, Bool.false_eq_true, if_false]

/-- Settles O52: the load as one equation, the cells from what contiguous stores leave, the rest unchanged. -/
theorem loadPlacesTheWords : Obligations.LoadPlacesTheWords := by
  intro s hi lo bs ws hst hws hfit
  refine ⟨_, loadImage_of_fits hst hws hfit, ?placed, ?kept, rfl, fun _ _ => rfl, rfl, ⟨rfl, rfl, rfl⟩,
    ⟨rfl, rfl, rfl, rfl⟩⟩
  case placed => exact storeWords_read ws (hi ++ lo) s.mem (by omega)
  case kept => exact storeWords_read_ne ws (hi ++ lo) s.mem

end Sys2Proof.Machine
end

section
/-! The condition flags (spec/10_state.md R23 to R25, R31): every operation but `setcc` and BR's test carries a changed
`cond` through, so an instruction that sets flags has one result for all earlier flags, and any other one but BR hands
them on. -/

namespace Sys2Proof.Machine

/-! ### Operations under other flags -/

section
variable (s : State) (f : BitVec 3)

@[simp] theorem setCond_self : s.setCond s.cond = s := rfl

@[simp] theorem setCond_setCond (g : BitVec 3) : (s.setCond f).setCond g = s.setCond g := rfl

/-- Writing a destination sets the flags anew, so it does not see the flags before (41 R91). -/
@[simp] theorem setCond_writeDest (dr : Reg) (v : Word) : (s.setCond f).writeDest dr v = s.writeDest dr v := by
  rw [writeDest_eq, writeDest_eq]
  rfl

@[simp] theorem setCond_conIn : (s.setCond f).conIn = (s.conIn.1, s.conIn.2.setCond f) := by
  cases h : s.answers with
  | nil => rw [conIn_nil s h, conIn_nil (s.setCond f) h]; rfl
  | cons a rest => rw [conIn_cons s h, conIn_cons (s.setCond f) h]; rfl

@[simp] theorem setCond_refreshKb (c : Option Byte) : (s.setCond f).refreshKb c = (s.refreshKb c).setCond f := by
  cases c <;> rfl

@[simp] theorem setCond_afterRead (a : Word) : (s.setCond f).afterRead a = (s.afterRead a).setCond f := by
  by_cases h : a = s.cfg.kbsrAddr
  · simp [State.afterRead, State.kbPoll, h]
  · rw [afterRead_of_ne s h, afterRead_of_ne (s.setCond f) h]

@[simp] theorem setCond_memRead (a : Word) :
    (s.setCond f).memRead a = ((s.memRead a).1, (s.memRead a).2.setCond f) := by
  simp [State.memRead]

@[simp] theorem setCond_trapRead (a : Word) :
    (s.setCond f).trapRead a = ((s.trapRead a).1, (s.trapRead a).2.setCond f) := by
  unfold State.trapRead
  rw [setCond_cfg, setCond_memRead]
  split <;> rfl

@[simp] theorem setCond_loadFrom (dr : Reg) (ea : Word) : (s.setCond f).loadFrom dr ea = s.loadFrom dr ea := by
  simp [State.loadFrom]

@[simp] theorem setCond_enterTrap (v : Byte) : (s.setCond f).enterTrap v = (s.enterTrap v).setCond f := by
  unfold State.enterTrap
  rw [setCond_cfg]
  cases trapTable s.cfg.trapvecOf v with
  | some r => rfl
  | none =>
    change State.unknownTrap (s.saveReturn.setCond f) v = _
    unfold State.unknownTrap
    rw [setCond_cfg]
    cases s.saveReturn.cfg.unknownTrap <;> rfl

/-! ### The trap engine under other flags (44 R142) -/

theorem trapGetc_setCond : trapGetc (s.setCond f) = (trapGetc s).setCond f := by
  unfold trapGetc
  rw [setCond_conIn]
  rfl

theorem trapPuts_setCond (p : Word) : trapPuts p (s.setCond f) = (trapPuts p s).setCond f := by
  unfold trapPuts
  rw [setCond_trapRead]
  split <;> rfl

theorem trapPutsp_setCond (p : Word) (h : Half) : trapPutsp p h (s.setCond f) = (trapPutsp p h s).setCond f := by
  unfold trapPutsp
  rw [setCond_trapRead]
  split <;> rfl

theorem trapInRead_setCond : trapInRead (s.setCond f) = (trapInRead s).setCond f := by
  unfold trapInRead
  rw [setCond_conIn]
  cases s.conIn.1 <;> rfl

theorem trapInPrompt_setCond (k : Nat) : trapInPrompt k (s.setCond f) = (trapInPrompt k s).setCond f := by
  unfold trapInPrompt
  rw [setCond_cfg]
  cases s.cfg.inPrompt[k]? with
  | some b => rfl
  | none => exact trapInRead_setCond s f

theorem trapHalt_setCond (k : Nat) : trapHalt k (s.setCond f) = (trapHalt k s).setCond f := by
  unfold trapHalt
  rw [setCond_cfg]
  cases s.cfg.haltNotice[k]? <;> rfl

/-- The trap engine neither reads nor writes `cond` (10 R25, 44 R142). -/
theorem trapStep_setCond : trapStep (s.setCond f) = (trapStep s).setCond f := by
  unfold trapStep
  rw [setCond_te]
  cases s.te with
  | idle | out | inEcho c => rfl
  | getc => exact trapGetc_setCond s f
  | puts p => exact trapPuts_setCond s f p
  | putsp p h => exact trapPutsp_setCond s f p h
  | inPrompt k => exact trapInPrompt_setCond s f k
  | halt k => exact trapHalt_setCond s f k

/-- The trap engine leaves `cond` as it was (44 R142). -/
@[simp] theorem trapStep_cond : (trapStep s).cond = s.cond := by
  obtain ⟨x, m, q, d, r, t, o, h⟩ := trapStep_frame s
  rw [h]

/-- A fetch leaves `cond` as it was (10 R24). -/
@[simp] theorem fetch_cond : s.fetch.2.cond = s.cond := by
  simp [fetch_eq]

end

/-! ### Instructions by their effect on the flags -/

/-- `flagsOf` answers the bit of one flag (41 R91). -/
theorem flagsOf_cases (c : Config) (v : Word) :
    flagsOf c v = flagBit c.condN ∨ flagsOf c v = flagBit c.condZ ∨ flagsOf c v = flagBit c.condP := by
  unfold flagsOf
  split
  · exact .inr (.inl rfl)
  · split
    · exact .inl rfl
    · exact .inr (.inr rfl)

/-- An instruction with a flag-setting destination ends by writing it and setting the flags from it: ADD, AND, NOT, LEA
on the state itself, LD, LDR, LDI on the state after their reads (10 R24). -/
theorem exec_eq_writeDest {i : Instr} {dr : Reg} (s : State) (hd : destOf i = some dr) :
    ∃ (u : State) (v : Word), u.cfg = s.cfg ∧ exec i s = .next (u.writeDest dr v) := by
  cases i <;> cases hd
  case addReg | addImm | andReg | andImm | notReg | lea => exact ⟨s, _, rfl, rfl⟩
  case ld | ldr => exact ⟨s.afterRead _, _, afterRead_cfg s _, rfl⟩
  case ldi => exact ⟨(s.afterRead _).afterRead _, _, by simp, rfl⟩

/-- An instruction with a flag-setting destination has one result, whatever the flags before (10 R25). -/
theorem exec_setCond_of_destOf_some {i : Instr} {dr : Reg} (s : State) (f : BitVec 3) (hd : destOf i = some dr) :
    exec i (s.setCond f) = exec i s := by
  cases i <;> cases hd
  case addReg | addImm | andReg | andImm | notReg | lea =>
    exact congrArg Host.Outcome.next (setCond_writeDest s f dr _)
  case ld | ldr => exact congrArg Host.Outcome.next (setCond_loadFrom s f dr _)
  case ldi => simp only [exec, execLdi, setCond_pc, setCond_memRead, setCond_loadFrom]

/-- An instruction with no flag-setting destination, BR excepted, hands other flags before on to the state after
(10 R25). -/
theorem exec_setCond_of_destOf_none {i : Instr} {s t : State} (f : BitVec 3) (hd : destOf i = none)
    (hbr : ∀ nzp off, i ≠ .br nzp off) (h : exec i s = .next t) : exec i (s.setCond f) = .next (t.setCond f) := by
  cases i <;> cases hd <;> cases h
  case br nzp off => exact absurd rfl (hbr nzp off)
  case jmp | ret | jsr | jsrr | st | str => rfl
  case sti => simp only [exec, execSti, setCond_pc, setCond_memRead]; rfl
  case trap v => exact congrArg Host.Outcome.next (setCond_enterTrap s f v)
  case getc | out | puts | inChar | putsp | halt => rfl
  case rti | res => rfl

/-- BR leaves `cond` as it was, taken or not (42 R100). -/
theorem execBr_cond {s t : State} {nzp : BitVec 3} {off : BitVec 9} (h : execBr nzp off s = .next t) :
    t.cond = s.cond := by
  cases h
  split <;> rfl

/-- A flag-setting instruction leaves the flags of the value in its destination (10 R24). -/
theorem exec_cond_of_destOf_some {i : Instr} {s t : State} {dr : Reg} (hd : destOf i = some dr)
    (h : exec i s = .next t) : t.cond = flagsOf s.cfg (t.reg dr) := by
  obtain ⟨u, v, hcfg, hexec⟩ := exec_eq_writeDest s hd
  cases h.symm.trans hexec
  simp [writeDest_eq, hcfg]

/-- An instruction with no flag-setting destination leaves `cond` as it was (10 R24). -/
theorem exec_cond_of_destOf_none {i : Instr} {s t : State} (hd : destOf i = none) (h : exec i s = .next t) :
    t.cond = s.cond := by
  by_cases hbr : ∃ nzp off, i = .br nzp off
  · obtain ⟨nzp, off, rfl⟩ := hbr
    exact execBr_cond h
  · have same_flags : exec i s = .next (t.setCond s.cond) :=
      exec_setCond_of_destOf_none s.cond hd (fun nzp off e => hbr ⟨nzp, off, e⟩) h
    rw [h, Host.Outcome.next.injEq] at same_flags
    simpa using congrArg State.cond same_flags

/-! ### The statements -/

/-- Settles O44: the destination's flags or the old ones, by `destOf`; the engine and the fetch keep `cond`. -/
theorem onlyTheseWriteCond : Obligations.OnlyTheseWriteCond :=
  ⟨fun _ _ _ h => ⟨fun _ hd => exec_cond_of_destOf_some hd h, fun hd => exec_cond_of_destOf_none hd h⟩,
    trapStep_cond, fetch_cond⟩

/-- Settles O45: other flags before are overwritten by a flag-setting instruction and handed on by any other but BR
and by the engine; the flags set are those of a value, hence exactly one. -/
theorem onlyBranchReadsCond : Obligations.OnlyBranchReadsCond := by
  refine ⟨fun i s t f hbr h => ?others, trapStep_setCond, fun i s t h hd => ?oneFlag⟩
  case others =>
    cases hd : destOf i with
    | none => simpa using exec_setCond_of_destOf_none f hd hbr h
    | some dr => simpa using (exec_setCond_of_destOf_some s f hd).trans h
  case oneFlag =>
    obtain ⟨dr, hdr⟩ := Option.ne_none_iff_exists'.1 hd
    rw [exec_cond_of_destOf_some hdr h]
    exact flagsOf_cases s.cfg (t.reg dr)

/-- Settles O50: each register of the replicated file is 0, each cell is unlisted, and the rest is by definition. -/
theorem resetValues : Obligations.ResetValues := by
  refine ⟨fun r => ?registers, rfl, rfl, fun _ => rfl, rfl, rfl⟩
  case registers => simp [State.reg, State.reset]

end Sys2Proof.Machine
end

section
/-! The frame of a memory write (spec/20_memory.md R47), in the terms the statements use. No address is an exception:
KBSR and KBDR are written like any other cell. -/

namespace Sys2Proof.Machine

/-- By the read-after-write rule of a cell. -/
theorem memWrite_sameCellsBut (s : State) (a v : Word) : SameCellsBut [a] s (s.memWrite a v) := by
  intro b hb
  have hne : b ≠ a := List.ne_of_not_mem_cons hb
  rw [memWrite_cell, if_neg hne]

theorem memWrite_sameRegs (s : State) (a v : Word) : SameRegsBut [] s (s.memWrite a v) :=
  fun r _ => memWrite_reg s a v r

/-- Of the memory accesses only a read of KBSR polls (20 R46); a write to it, or to KBDR, does not. -/
theorem memWrite_sameConsole (s : State) (a v : Word) : SameConsole s (s.memWrite a v) :=
  ⟨memWrite_answers s a v, memWrite_draws s a v, memWrite_out s a v⟩

theorem memWrite_sameControl (s : State) (a v : Word) : SameControl s (s.memWrite a v) :=
  ⟨memWrite_run s a v, memWrite_te s a v, memWrite_started s a v, memWrite_cfg s a v⟩

/-- Settles O21: the written cell reads back the value; each other part of the state is kept by its frame lemma. -/
theorem memWriteStoresAndNothingElse : Obligations.MemWriteStoresAndNothingElse := fun s a v =>
  ⟨memWrite_cell_same s a v, memWrite_sameCellsBut s a v, memWrite_sameRegs s a v, memWrite_pc s a v,
    memWrite_cond s a v, memWrite_sameConsole s a v, memWrite_sameControl s a v⟩

end Sys2Proof.Machine
end

section
/-! The operate instructions (spec/41_operate.md R90, R92 to R96): sign extension; the word of an opcode; and writing a
destination register, which is all that ADD, AND and NOT do. -/

namespace Sys2Proof.Machine

/-! ### Sign extension (41 R90) -/

/-- A field whose sign bit is clear gains zeros above it. -/
theorem sext_of_msb_false {n : Nat} {v : BitVec n} (h : v.msb = false) : sext v = v.setWidth 16 :=
  BitVec.signExtend_eq_setWidth_of_msb_false h

/-- A field whose sign bit is set gains ones above it. -/
theorem sext_of_msb_true {n : Nat} {v : BitVec n} (h : v.msb = true) :
    sext v = v.setWidth 16 ||| (0xFFFF#16 <<< n) := by
  have mask_bit : ∀ j < 16, (0xFFFF#16).getLsbD j = true := by decide
  refine BitVec.eq_of_getLsbD_eq fun k hk => ?_
  simp only [sext, BitVec.getLsbD_signExtend, BitVec.getLsbD_or, BitVec.getLsbD_setWidth, BitVec.getLsbD_shiftLeft,
    hk, h, decide_true, Bool.true_and]
  by_cases hfield : k < n
  · simp [hfield]
  · simp [hfield, BitVec.getLsbD_of_ge v k (by omega), mask_bit (k - n) (by omega)]

/-- Settles O9: by the sign bit, which is bit `n - 1`; up to 16 bits the signed value is kept. -/
theorem signExtensionWidens : Obligations.SignExtensionWidens := by
  intro n v _ hn
  refine ⟨?bits, BitVec.toInt_signExtend_of_le hn⟩
  case bits =>
    rw [← BitVec.msb_eq_getLsbD_last]
    split
    next h => exact sext_of_msb_true h
    next h => exact sext_of_msb_false (Bool.eq_false_of_not_eq_true h)

/-! ### The words of an opcode -/

/-- A word that carries an opcode's number decodes to that opcode's instruction (30 R65, R70). -/
theorem decode_of_opcodeBits {c : Config} {w : Word} (hc : c.wf) {o : Opcode} (h : opcodeBits w = c.opcodeOf.num o) :
    decode c w = .ok (decodeFields c w o) := by
  rw [decode, h, opcodeName_num hc o]

/-! ### Writing a destination register (41 R91) -/

section
variable (s : State) (dr : Reg) (v : Word)

@[simp] theorem writeDest_reg_same : (s.writeDest dr v).reg dr = v := by
  simp [writeDest_eq]

theorem writeDest_sameRegsBut : SameRegsBut [dr] s (s.writeDest dr v) := by
  intro r hr
  have hne : r ≠ dr := List.ne_of_not_mem_cons hr
  rw [writeDest_eq, setCond_reg, setReg_reg_ne s v hne]

/-- The flags are those of the value the destination holds afterwards, and only the destination and the flags
change. -/
theorem writeDest_flags_and_frame :
    (s.writeDest dr v).cond = flagsOf s.cfg ((s.writeDest dr v).reg dr) ∧ SameRegsBut [dr] s (s.writeDest dr v) ∧
      (s.writeDest dr v).pc = s.pc ∧ SameCellsBut [] s (s.writeDest dr v) ∧ SameConsole s (s.writeDest dr v) ∧
      SameControl s (s.writeDest dr v) :=
  ⟨rfl, writeDest_sameRegsBut s dr v, rfl, fun _ _ => rfl, ⟨rfl, rfl, rfl⟩, ⟨rfl, rfl, rfl, rfl⟩⟩

end

/-! ### The statements -/

/-- Settles O11: bit 5 selects the mode, and each mode writes the sum of two words to its destination. -/
theorem addBothModes : Obligations.AddBothModes := by
  refine ⟨⟨fun c w hc hop hmode => ?regWord, fun dr sr1 sr2 s => ?reg⟩,
    ⟨fun c w hc hop hmode => ?immWord, fun dr sr1 imm5 s => ?imm⟩⟩
  case regWord | immWord => simp [decode_of_opcodeBits hc (o := .add) hop, decodeFields, hmode]
  case reg | imm =>
    refine ⟨_, rfl, ?_, writeDest_flags_and_frame s dr _⟩
    rw [writeDest_reg_same, BitVec.toNat_add]

/-- Settles O12: bit 5 selects the mode, and each mode writes the AND of two words to its destination. -/
theorem andBothModes : Obligations.AndBothModes := by
  refine ⟨⟨fun c w hc hop hmode => ?regWord, fun dr sr1 sr2 s => ?reg⟩,
    ⟨fun c w hc hop hmode => ?immWord, fun dr sr1 imm5 s => ?imm⟩⟩
  case regWord | immWord => simp [decode_of_opcodeBits hc (o := .and) hop, decodeFields, hmode]
  case reg | imm =>
    refine ⟨_, rfl, fun k => ?_, writeDest_flags_and_frame s dr _⟩
    rw [writeDest_reg_same, BitVec.getLsbD_and]

/-- Settles O13: the destination is written with the complement, whose bits within the word are inverted. -/
theorem notComplements : Obligations.NotComplements := by
  refine ⟨fun c w hc hop => decode_of_opcodeBits hc (o := .not) hop, fun dr sr s => ?_⟩
  refine ⟨_, rfl, fun k hk => ?_, writeDest_flags_and_frame s dr _⟩
  rw [writeDest_reg_same, BitVec.getLsbD_not, decide_eq_true hk, Bool.true_and]

end Sys2Proof.Machine
end

section
/-! Control transfer (spec/42_control.md R100 to R104): a jump writes the pc alone; a call saves the return address in
R7, as trap entry does, and then jumps. -/

namespace Sys2Proof.Machine

/-! ### Jumps and calls -/

section
variable (s : State) (target : Word)

/-- A jump leaves everything but the pc as it was. -/
theorem setPc_frame :
    (s.setPc target).cond = s.cond ∧ SameRegsBut [] s (s.setPc target) ∧ SameCellsBut [] s (s.setPc target) ∧
      SameConsole s (s.setPc target) ∧ SameControl s (s.setPc target) :=
  ⟨rfl, fun _ _ => rfl, fun _ _ => rfl, ⟨rfl, rfl, rfl⟩, ⟨rfl, rfl, rfl, rfl⟩⟩

@[simp] theorem saveReturn_reg7 : s.saveReturn.reg 7 = s.pc :=
  setReg_reg_same s 7 s.pc

theorem saveReturn_sameRegsBut : SameRegsBut [7] s s.saveReturn := by
  intro r hr
  have hne : r ≠ 7 := List.ne_of_not_mem_cons hr
  exact setReg_reg_ne s s.pc hne

/-- A call leaves everything but R7 and the pc as it was. -/
theorem saveReturn_setPc_frame :
    (s.saveReturn.setPc target).cond = s.cond ∧ SameRegsBut [7] s (s.saveReturn.setPc target) ∧
      SameCellsBut [] s (s.saveReturn.setPc target) ∧ SameConsole s (s.saveReturn.setPc target) ∧
      SameControl s (s.saveReturn.setPc target) :=
  ⟨rfl, saveReturn_sameRegsBut s, fun _ _ => rfl, ⟨rfl, rfl, rfl⟩, ⟨rfl, rfl, rfl, rfl⟩⟩

end

theorem branchTaken_iff {field cond : BitVec 3} : branchTaken field cond = true ↔ field &&& cond ≠ 0 :=
  decide_eq_true_iff

/-- BR is a jump either way: untaken, it goes on at the incremented pc (42 R100). -/
theorem execBr_eq_setPc (nzp : BitVec 3) (off : BitVec 9) (s : State) :
    execBr nzp off s = .next (s.setPc (if nzp &&& s.cond ≠ 0 then s.pc + sext off else s.pc)) := by
  simp only [execBr, branchTaken_iff]
  by_cases taken : nzp &&& s.cond ≠ 0
  · rw [if_pos taken, if_pos taken, pcRelative]
  · rw [if_neg taken, if_neg taken]
    rfl

/-! ### The return address (42 R104, 44 R130) -/

theorem enterRoutine_reg7 (s : State) (r : Routine) : (s.enterRoutine r).reg 7 = s.pc := by
  rw [enterRoutine_eq, setTe_reg, setReg_reg_same]

/-- A TRAP of any vector, listed or not, saves the return address. -/
theorem enterTrap_reg7 (s : State) (v : Byte) : (s.enterTrap v).reg 7 = s.pc := by
  rcases enterTrap_cases s v with ⟨r, _, h⟩ | ⟨_, _, h⟩ | ⟨_, _, h⟩ <;> rw [h]
  · exact enterRoutine_reg7 s r
  · exact saveReturn_reg7 s
  · exact saveReturn_reg7 s

/-- An instruction that writes R7, but not as a destination, leaves the return address there. -/
theorem exec_reg7_of_destOf_none {i : Instr} {s t : State} (hw : 7 ∈ writtenRegs i) (hd : destOf i = none)
    (h : exec i s = .next t) : t.reg 7 = s.pc := by
  cases i <;> cases hd <;> cases h
  case br | jmp | ret | st | sti | str | rti | res => cases hw
  case jsr | jsrr => exact saveReturn_reg7 s
  case trap v => exact enterTrap_reg7 s v
  case getc | out | puts | inChar | putsp | halt => exact enterRoutine_reg7 s _

/-! ### The statements -/

/-- Settles O18: RET jumps to what R7 holds, and a call or a TRAP has left the return address there. -/
theorem callThenReturn : Obligations.CallThenReturn := by
  intro i s t hw hd h
  have saved : t.reg 7 = s.pc := exec_reg7_of_destOf_none hw hd h
  exact ⟨saved, fun u kept => ⟨_, rfl, kept.trans saved⟩⟩

/-- Settles O14: BR as one jump whose target depends on the flags. -/
theorem branchOnFlags : Obligations.BranchOnFlags := by
  refine ⟨fun c w hc hop => decode_of_opcodeBits hc (o := .br) hop, fun nzp off s => ?_⟩
  exact ⟨_, execBr_eq_setPc nzp off s, fun taken => if_pos taken, fun untaken => if_neg (not_not_intro untaken),
    setPc_frame s _⟩

/-- Settles O15: RET is the JMP row at R7, and both jump to what their register holds. -/
theorem jumpThroughRegister : Obligations.JumpThroughRegister :=
  ⟨fun _ _ hc hop => decode_of_opcodeBits hc (o := .jmp) hop, fun _ s => ⟨_, rfl, rfl, setPc_frame s _⟩,
    fun s => ⟨_, rfl, rfl, setPc_frame s _⟩⟩

/-- Settles O16: bit 11 selects JSR, a call of a PC-relative target. -/
theorem jsrCalls : Obligations.JsrCalls := by
  refine ⟨fun c w hc hop hmode => ?word, fun off s => ?call⟩
  case word => simp [decode_of_opcodeBits hc (o := .jsr) hop, decodeFields, hmode]
  case call => exact ⟨_, rfl, saveReturn_reg7 s, rfl, saveReturn_setPc_frame s _⟩

/-- Settles O17: the target is read after R7 is written, so it is the return address for R7 and the old value for any
other register. -/
theorem jsrrCalls : Obligations.JsrrCalls := by
  refine ⟨fun c w hc hop hmode => ?word, fun b s => ?call⟩
  case word => simp [decode_of_opcodeBits hc (o := .jsr) hop, decodeFields, hmode]
  case call =>
    refine ⟨_, rfl, saveReturn_reg7 s, fun hb => ?linkRegister, fun hb => setReg_reg_ne s s.pc hb,
      saveReturn_setPc_frame s _⟩
    case linkRegister =>
      subst hb
      exact saveReturn_reg7 s

end Sys2Proof.Machine
end

section
/-! Loads and stores (spec/43_load_store.md R110 to R116): polling reads, and then one write of a destination register
or of a cell. Memory and the console are those the reads leave but for that write, all else that of the instruction's
start. -/

namespace Sys2Proof.Machine

/-! ### After the reads -/

/-- `u` is `s` but for memory and the host's answers: all that polling reads change (20 R46, R48). -/
def SameButPolled (s u : State) : Prop := ∃ m q d, u = { s with mem := m, answers := q, draws := d }

section
variable {s u : State}

/-- No read at all: LEA, ST, STR. -/
theorem sameButPolled_refl (s : State) : SameButPolled s s := ⟨s.mem, s.answers, s.draws, rfl⟩

theorem SameButPolled.afterRead (h : SameButPolled s u) (a : Word) : SameButPolled s (u.afterRead a) := by
  obtain ⟨m, q, d, rfl⟩ := h
  exact afterRead_state _ a

/-- A destination written after the reads, in the order the statements list what holds then. -/
theorem SameButPolled.writeDest (h : SameButPolled s u) (dr : Reg) (v : Word) :
    (u.writeDest dr v).reg dr = v ∧ (u.writeDest dr v).cond = flagsOf s.cfg v ∧
      SameRegsBut [dr] s (u.writeDest dr v) ∧ (u.writeDest dr v).pc = s.pc ∧ SameCellsBut [] u (u.writeDest dr v) ∧
      SameConsole u (u.writeDest dr v) ∧ SameControl s (u.writeDest dr v) := by
  have written := writeDest_reg_same u dr v
  obtain ⟨flags, frame⟩ := writeDest_flags_and_frame u dr v
  rw [written] at flags
  obtain ⟨m, q, d, rfl⟩ := h
  exact ⟨written, flags, frame⟩

/-- A cell written after the reads, in the order the statements list what holds then. -/
theorem SameButPolled.memWrite (h : SameButPolled s u) (a v : Word) :
    (u.memWrite a v).cell a = v ∧ SameCellsBut [a] u (u.memWrite a v) ∧ (u.memWrite a v).cond = s.cond ∧
      SameRegsBut [] s (u.memWrite a v) ∧ (u.memWrite a v).pc = s.pc ∧ SameConsole u (u.memWrite a v) ∧
      SameControl s (u.memWrite a v) := by
  obtain ⟨m, q, d, rfl⟩ := h
  exact ⟨memWrite_cell_same _ a v, memWrite_sameCellsBut _ a v, memWrite_cond _ a v, memWrite_sameRegs _ a v,
    memWrite_pc _ a v, memWrite_sameConsole _ a v, memWrite_sameControl _ a v⟩

end

/-- STI stores the register as it was before the pointer read, which changes no register (43 R115). -/
theorem execSti_eq (sr : Reg) (off : BitVec 9) (s : State) :
    execSti sr off s = .next ((s.afterRead (s.pc + sext off)).memWrite (s.memRead (s.pc + sext off)).1 (s.reg sr)) := by
  simp only [execSti, memRead_snd, afterRead_reg, pcRelative]

/-! ### The statements -/

/-- Settles O24: one read, then the destination. -/
theorem loadPcRelative : Obligations.LoadPcRelative :=
  ⟨fun _ _ hc hop => decode_of_opcodeBits hc (o := .ld) hop,
    fun dr _ s => ⟨_, rfl, ((sameButPolled_refl s).afterRead _).writeDest dr _⟩⟩

/-- Settles O25: the read at the pointer is made in the state the pointer's read leaves. -/
theorem loadIndirect : Obligations.LoadIndirect :=
  ⟨fun _ _ hc hop => decode_of_opcodeBits hc (o := .ldi) hop,
    fun dr _ s => ⟨_, rfl, (((sameButPolled_refl s).afterRead _).afterRead _).writeDest dr _⟩⟩

/-- Settles O26: one read, then the destination, which may be the base register. -/
theorem loadBaseOffset : Obligations.LoadBaseOffset :=
  ⟨fun _ _ hc hop => decode_of_opcodeBits hc (o := .ldr) hop,
    fun dr _ _ s => ⟨_, rfl, ((sameButPolled_refl s).afterRead _).writeDest dr _⟩⟩

/-- Settles O27: no read; the destination takes the address itself. -/
theorem loadEffectiveAddress : Obligations.LoadEffectiveAddress :=
  ⟨fun _ _ hc hop => decode_of_opcodeBits hc (o := .lea) hop,
    fun dr _ s => ⟨_, rfl, (sameButPolled_refl s).writeDest dr _⟩⟩

/-- Settles O28: no read; one cell written. -/
theorem storePcRelative : Obligations.StorePcRelative :=
  ⟨fun _ _ hc hop => decode_of_opcodeBits hc (o := .st) hop,
    fun _ _ s => ⟨_, rfl, (sameButPolled_refl s).memWrite _ _⟩⟩

/-- Settles O29: one read, then the cell it names is written. -/
theorem storeIndirect : Obligations.StoreIndirect :=
  ⟨fun _ _ hc hop => decode_of_opcodeBits hc (o := .sti) hop,
    fun sr off s => ⟨_, execSti_eq sr off s, ((sameButPolled_refl s).afterRead _).memWrite _ _⟩⟩

/-- Settles O30: no read; one cell written, also where the stored register is the base. -/
theorem storeBaseOffset : Obligations.StoreBaseOffset :=
  ⟨fun _ _ hc hop => decode_of_opcodeBits hc (o := .str) hop,
    fun _ _ _ s => ⟨_, rfl, (sameButPolled_refl s).memWrite _ _⟩⟩

end Sys2Proof.Machine
end

section
/-! The reserved opcodes (spec/45_reserved.md R150, R151): RTI and RES raise a BadOpcode in every state, and raising one
writes the run state alone. -/

namespace Sys2Proof.Machine

/-- A BadOpcode halts the run with the opcode and the fetch address, and leaves everything else, a routine in progress
included, as it was (60 R161). -/
theorem raiseBadOpcode_run_and_frame (s : State) (op : BitVec 4) :
    (s.raiseBadOpcode op).run = .halted (.badOpcode op (s.pc - 1)) ∧ SameRegsBut [] s (s.raiseBadOpcode op) ∧
      (s.raiseBadOpcode op).pc = s.pc ∧ (s.raiseBadOpcode op).cond = s.cond ∧
      SameCellsBut [] s (s.raiseBadOpcode op) ∧ SameConsole s (s.raiseBadOpcode op) ∧
      (s.raiseBadOpcode op).te = s.te ∧ (s.raiseBadOpcode op).started = s.started ∧
      (s.raiseBadOpcode op).cfg = s.cfg := by
  rw [raiseBadOpcode_eq]
  exact ⟨setRun_run s _, fun r _ => setRun_reg s _ r, setRun_pc s _, setRun_cond s _, fun a _ => setRun_cell s _ a,
    ⟨setRun_answers s _, setRun_draws s _, setRun_out s _⟩, setRun_te s _, setRun_started s _, setRun_cfg s _⟩

/-- Settles O43: each reserved opcode's words decode to its instruction, whose whole effect is its BadOpcode. -/
theorem reservedOpcodesAreFatal : Obligations.ReservedOpcodesAreFatal :=
  ⟨⟨fun _ _ hc hop => decode_of_opcodeBits hc (o := .rti) hop,
      fun s => ⟨_, rfl, raiseBadOpcode_run_and_frame s s.cfg.opcodeOf.rti⟩⟩,
    ⟨fun _ _ hc hop => decode_of_opcodeBits hc (o := .res) hop,
      fun s => ⟨_, rfl, raiseBadOpcode_run_and_frame s s.cfg.opcodeOf.res⟩⟩⟩

end Sys2Proof.Machine
end

section
/-! The decoder and the encoder (spec/30_encoding.md R60 to R70): every word carries the number of one opcode, an
instruction is known by that opcode and the bits its format reads, and those bits are all the decoder sees. -/

namespace Sys2Proof

open Machine (defaultConfig)

/-! ### Fields of a word that is known under a mask -/

theorem bits_and (v w : Word) (lo n : Nat) : bits (v &&& w) lo n = bits v lo n &&& bits w lo n :=
  BitVec.extractLsb'_and

/-- A field that the mask covers is read off the masked word. -/
theorem bits_eq_of_and_eq {w m x : Word} {lo n : Nat} (h : w &&& m = x) (covered : bits m lo n = BitVec.allOnes n) :
    bits w lo n = bits x lo n := by
  rw [← h, bits_and, covered, BitVec.and_allOnes]

/-- Words that agree under a mask agree in every field it covers. -/
theorem bits_congr_of_and_eq {v w m : Word} {lo n : Nat} (h : v &&& m = w &&& m)
    (covered : bits m lo n = BitVec.allOnes n) : bits v lo n = bits w lo n :=
  (bits_eq_of_and_eq h covered).trans (bits_eq_of_and_eq rfl covered).symm

/-! ### The opcode of an instruction -/

/-- The opcode of the format an instruction is written in (30 R62, R65). -/
def Instr.opcode : Instr → Opcode
  | .addReg _ _ _ | .addImm _ _ _ => .add
  | .andReg _ _ _ | .andImm _ _ _ => .and
  | .notReg _ _ => .not
  | .br _ _ => .br
  | .jmp _ | .ret => .jmp
  | .jsr _ | .jsrr _ => .jsr
  | .ld _ _ => .ld
  | .ldi _ _ => .ldi
  | .ldr _ _ _ => .ldr
  | .lea _ _ => .lea
  | .st _ _ => .st
  | .sti _ _ => .sti
  | .str _ _ _ => .str
  | .trap _ | .getc | .out | .puts | .inChar | .putsp | .halt => .trap
  | .rti => .rti
  | .res => .res

/-- The encoder writes the number of the instruction's opcode. -/
theorem opcodeBits_encode (c : Config) (i : Instr) : opcodeBits (encode c i) = c.opcodeOf.num i.opcode := by
  cases i
  case addReg | andReg => exact opcodeBits_encOPR ..
  case addImm | andImm => exact opcodeBits_encOPI ..
  case br | ld | ldi | lea | st | sti => exact opcodeBits_encPC9 ..
  case notReg | jmp | ret | ldr | str => exact opcodeBits_encB6 ..
  case jsr => exact opcodeBits_encJ11 ..
  case jsrr => exact opcodeBits_encJRR ..
  case trap | getc | out | puts | inChar | putsp | halt => exact opcodeBits_encTV ..
  case rti | res => exact opcodeBits_encNF ..

@[simp] theorem routineInstr_opcode (r : Routine) : (routineInstr r).opcode = .trap := by
  cases r <;> rfl

/-- TRAP's words read as a routine's row or as TRAP itself. -/
theorem decodeTrap_cases (c : Config) (v : Byte) :
    (∃ r, c.trapvecOf.vec r = v ∧ decodeTrap c v = routineInstr r) ∨
    (trapTable c.trapvecOf v = none ∧ decodeTrap c v = .trap v) := by
  unfold decodeTrap
  cases h : trapTable c.trapvecOf v with
  | some r => exact .inl ⟨r, trapTable_some h, rfl⟩
  | none => exact .inr ⟨rfl, rfl⟩

/-- The operand fields of an opcode's word make an instruction of that opcode. -/
theorem opcode_decodeFields (c : Config) (w : Word) (o : Opcode) : (decodeFields c w o).opcode = o := by
  cases o
  case add | jsr | and | jmp => simp only [decodeFields]; split <;> rfl
  case trap =>
    rcases decodeTrap_cases c (bits w 0 8) with ⟨r, _, h⟩ | ⟨_, h⟩ <;> rw [decodeFields, h]
    · exact routineInstr_opcode r
    · rfl
  all_goals rfl

/-! ### Decoding an encoded instruction -/

theorem decodeTrap_vec {c : Config} (hc : c.wf) (r : Routine) : decodeTrap c (c.trapvecOf.vec r) = routineInstr r := by
  rw [decodeTrap, trapTable_vec hc]

/-- A vector outside the table is TRAP's own. -/
theorem decodeTrap_of_wf {c : Config} {v : Byte} (h : (Instr.trap v).wf c = true) : decodeTrap c v = .trap v := by
  have unlisted : trapTable c.trapvecOf v = none := trapTable_none.2 (of_decide_eq_true h)
  rw [decodeTrap, unlisted]

theorem encode_routineInstr (c : Config) (r : Routine) :
    encode c (routineInstr r) = encTV c.opcodeOf.trap (c.trapvecOf.vec r) := by
  cases r <;> rfl

theorem decodeFields_encode_routine {c : Config} (hc : c.wf) (r : Routine) :
    decodeFields c (encode c (routineInstr r)) .trap = routineInstr r := by
  rw [encode_routineInstr, decodeFields, encTV_vec, decodeTrap_vec hc]

/-- Each format's fields are read back from the places they were written to. -/
theorem decodeFields_encode {c : Config} {i : Instr} (hc : c.wf) (hi : i.wf c = true) :
    decodeFields c (encode c i) i.opcode = i := by
  cases i
  case addReg | addImm | andReg | andImm | notReg | br | ret | jsr | jsrr => simp [encode, Instr.opcode, decodeFields]
  case ld | ldi | ldr | lea | st | sti | str | rti | res => simp [encode, Instr.opcode, decodeFields]
  case jmp b => simpa [encode, Instr.opcode, decodeFields, Instr.wf] using hi
  case trap v => simpa [encode, Instr.opcode, decodeFields] using decodeTrap_of_wf hi
  case getc => exact decodeFields_encode_routine hc .getc
  case out => exact decodeFields_encode_routine hc .out
  case puts => exact decodeFields_encode_routine hc .puts
  case inChar => exact decodeFields_encode_routine hc .inChar
  case putsp => exact decodeFields_encode_routine hc .putsp
  case halt => exact decodeFields_encode_routine hc .halt

/-- Settles O1: the word carries the opcode's number, and its fields are the instruction's. -/
theorem decodeEncodeRoundTrip : Obligations.DecodeEncodeRoundTrip := by
  intro c i hc hi
  rw [Machine.decode_of_opcodeBits hc (opcodeBits_encode c i), decodeFields_encode hc hi]

/-! ### Encoding the fields of a word (30 R62) -/

section
variable {w : Word} {op : BitVec 4}

/-- A field of `w` put back in its place is `w` under the field's mask. -/
theorem place_bits (w : Word) (lo n : Nat) : place (bits w lo n) lo = w &&& place (BitVec.allOnes n) lo := by
  apply BitVec.eq_of_getLsbD_eq
  intro k hk
  by_cases below : k < lo
  · simp [place, below]
  · have above : lo + (k - lo) = k := by omega
    simp [place, bits, hk, below, above, Bool.and_comm]

theorem encOPR_fields (h : opcodeBits w = op) (mode : bits w 5 1 = 0#1) :
    encOPR op (bits w 9 3) (bits w 6 3) (bits w 0 3) = w &&& 0xFFE7 := by
  have bit5 : w &&& place (BitVec.allOnes 1) 5 = 0#16 := by rw [← place_bits, mode]; rfl
  rw [← h, ← BitVec.or_zero (x := encOPR ..), ← bit5]
  simp only [encOPR, opcodeBits, place_bits, ← BitVec.and_or_distrib_left]
  rfl

theorem encOPI_fields (h : opcodeBits w = op) (mode : bits w 5 1 = 1#1) :
    encOPI op (bits w 9 3) (bits w 6 3) (bits w 0 5) = w &&& 0xFFFF := by
  rw [← h, encOPI, ← mode]
  simp only [opcodeBits, place_bits, ← BitVec.and_or_distrib_left]
  rfl

theorem encPC9_fields (h : opcodeBits w = op) : encPC9 op (bits w 9 3) (bits w 0 9) = w &&& 0xFFFF := by
  rw [← h]
  simp only [encPC9, opcodeBits, place_bits, ← BitVec.and_or_distrib_left]
  rfl

theorem encB6_fields (h : opcodeBits w = op) :
    encB6 op (bits w 9 3) (bits w 6 3) (bits w 0 6) = w &&& 0xFFFF := by
  rw [← h]
  simp only [encB6, opcodeBits, place_bits, ← BitVec.and_or_distrib_left]
  rfl

/-- Format UN, whose ignored bits the encoder sets to ones. -/
theorem encB6_fields_un (h : opcodeBits w = op) :
    encB6 op (bits w 9 3) (bits w 6 3) 0b111111 &&& 0xFFC0 = w &&& 0xFFC0 := by
  have filler : place (0b111111 : BitVec 6) 0 &&& 0xFFC0 = 0#16 := rfl
  rw [← h]
  simp only [encB6, opcodeBits, place_bits, ← BitVec.and_or_distrib_left]
  rw [BitVec.and_or_distrib_right, filler, BitVec.or_zero, BitVec.and_assoc]
  rfl

/-- Format JR, whose ignored bits the encoder sets to zeros. -/
theorem encB6_fields_jr (h : opcodeBits w = op) : encB6 op 0 (bits w 6 3) 0 = w &&& 0xF1C0 := by
  have unread (n lo : Nat) : place (0 : BitVec n) lo = 0#16 := by simp [place]
  rw [← h]
  simp only [encB6, opcodeBits, unread, BitVec.or_zero, place_bits, ← BitVec.and_or_distrib_left]
  rfl

theorem encJ11_fields (h : opcodeBits w = op) (mode : bits w 11 1 = 1#1) :
    encJ11 op (bits w 0 11) = w &&& 0xFFFF := by
  rw [← h, encJ11, ← mode]
  simp only [opcodeBits, place_bits, ← BitVec.and_or_distrib_left]
  rfl

theorem encJRR_fields (h : opcodeBits w = op) (mode : bits w 11 1 = 0#1) :
    encJRR op (bits w 6 3) = w &&& 0xF9C0 := by
  have bit11 : w &&& place (BitVec.allOnes 1) 11 = 0#16 := by rw [← place_bits, mode]; rfl
  rw [← h, ← BitVec.or_zero (x := encJRR ..), ← bit11]
  simp only [encJRR, opcodeBits, place_bits, ← BitVec.and_or_distrib_left]
  rfl

theorem encTV_fields (h : opcodeBits w = op) : encTV op (bits w 0 8) = w &&& 0xF0FF := by
  rw [← h]
  simp only [encTV, opcodeBits, place_bits, ← BitVec.and_or_distrib_left]
  rfl

theorem encNF_fields (h : opcodeBits w = op) : encNF op = w &&& 0xF000 := by
  rw [← h]
  exact place_bits w 12 4

end

/-! ### The bits an instruction reads (30 R66) -/

theorem bit_eq_one {b : BitVec 1} : b ≠ 0 → b = 1 := by
  revert b
  decide

theorem bit_eq_zero {b : BitVec 1} : b ≠ 1 → b = 0 := by
  revert b
  decide

theorem and_self_mask {e w m : Word} (h : e = w &&& m) : e &&& m = w &&& m := by
  rw [h, BitVec.and_assoc, BitVec.and_self]

@[simp] theorem usedMask_routineInstr (r : Routine) : usedMask (routineInstr r) = 0xF0FF := by
  cases r <;> rfl

/-- Decoding keeps every bit that the instruction reads. -/
theorem encode_decodeFields {c : Config} {w : Word} {o : Opcode} (h : opcodeBits w = c.opcodeOf.num o) :
    encode c (decodeFields c w o) &&& usedMask (decodeFields c w o) = w &&& usedMask (decodeFields c w o) := by
  cases o
  case br | ld | st | ldi | sti | lea => exact and_self_mask (encPC9_fields h)
  case ldr | str => exact and_self_mask (encB6_fields h)
  case not => exact encB6_fields_un h
  case rti | res => exact and_self_mask (encNF_fields h)
  case add | and =>
    rw [decodeFields]
    split
    next mode => exact and_self_mask (encOPR_fields h mode)
    next mode => exact and_self_mask (encOPI_fields h (bit_eq_one mode))
  case jsr =>
    rw [decodeFields]
    split
    next mode => exact and_self_mask (encJ11_fields h mode)
    next mode => exact and_self_mask (encJRR_fields h (bit_eq_zero mode))
  case jmp =>
    rw [decodeFields]
    split
    next hb =>
      rw [encode, ← hb]
      exact and_self_mask (encB6_fields_jr h)
    next => exact and_self_mask (encB6_fields_jr h)
  case trap =>
    rcases decodeTrap_cases c (bits w 0 8) with ⟨r, hv, hd⟩ | ⟨_, hd⟩ <;> rw [decodeFields, hd]
    · rw [encode_routineInstr, hv, usedMask_routineInstr]
      exact and_self_mask (encTV_fields h)
    · exact and_self_mask (encTV_fields h)

/-- Every instruction reads the opcode field. -/
theorem usedMask_covers_opcode (i : Instr) : bits (usedMask i) 12 4 = BitVec.allOnes 4 := by
  cases i <;> simp only [usedMask] <;> rfl

theorem eq_of_and_full {v w : Word} (h : v &&& 0xFFFF = w &&& 0xFFFF) : v = w := by
  have full (u : Word) : u &&& 0xFFFF = u := BitVec.and_allOnes
  rwa [full, full] at h

/-- The bits an instruction reads settle all of its fields. -/
theorem decodeFields_congr {c : Config} {v w : Word} {o : Opcode}
    (h : v &&& usedMask (decodeFields c w o) = w &&& usedMask (decodeFields c w o)) :
    decodeFields c v o = decodeFields c w o := by
  have field {lo n : Nat} (covered : bits (usedMask (decodeFields c w o)) lo n = BitVec.allOnes n) :
      bits v lo n = bits w lo n := bits_congr_of_and_eq h covered
  cases o
  case br | ld | st | ldi | sti | lea | ldr | str => rw [eq_of_and_full h]
  case rti | res => rfl
  case not =>
    simp only [decodeFields, usedMask] at field ⊢
    rw [field rfl, field rfl]
  case add | and =>
    by_cases mode : bits w 5 1 = 0
    · simp only [decodeFields, if_pos mode, usedMask] at field ⊢
      rw [field rfl, if_pos mode, field rfl, field rfl, field rfl]
    · simp only [decodeFields, if_neg mode] at h
      rw [eq_of_and_full h]
  case jsr =>
    by_cases mode : bits w 11 1 = 1
    · simp only [decodeFields, if_pos mode] at h
      rw [eq_of_and_full h]
    · simp only [decodeFields, if_neg mode, usedMask] at field ⊢
      rw [field rfl, if_neg mode, field rfl]
  case jmp =>
    have base : bits v 6 3 = bits w 6 3 := by
      rw [decodeFields] at field
      split at field <;> simp only [usedMask] at field <;> exact field rfl
    rw [decodeFields, decodeFields, base]
  case trap =>
    have vector : bits v 0 8 = bits w 0 8 := by
      rw [decodeFields] at field
      rcases decodeTrap_cases c (bits w 0 8) with ⟨r, _, hd⟩ | ⟨_, hd⟩ <;> rw [hd] at field
      · rw [usedMask_routineInstr] at field
        exact field rfl
      · simp only [usedMask] at field
        exact field rfl
    rw [decodeFields, decodeFields, vector]

/-- Settles O2: the decoder's answer has all bits the format reads, and no other bit reaches it. -/
theorem decodeKeepsReadBitsAndIgnoresTheRest : Obligations.DecodeKeepsReadBitsAndIgnoresTheRest := by
  intro c w i h
  obtain ⟨o, ho, rfl⟩ := decode_cases h
  refine ⟨encode_decodeFields (opcodeName_some ho).symm, fun v hv => ?_⟩
  have same_opcode : opcodeBits v = opcodeBits w := bits_congr_of_and_eq hv (usedMask_covers_opcode _)
  simp only [decode, same_opcode, ho, decodeFields_congr hv]

/-! ### Every word decodes (30 R67, R70) -/

/-- Sixteen opcodes with different numbers leave no 4-bit number unused. -/
theorem exists_opcode_num {c : Config} (hc : c.wf) (n : BitVec 4) : ∃ o, c.opcodeOf.num o = n := by
  have all_numbers : (Opcode.all.map c.opcodeOf.num).toFinset = Finset.univ :=
    Finset.eq_univ_of_card _ (List.toFinset_card_of_nodup hc.1)
  have hn : n ∈ (Opcode.all.map c.opcodeOf.num).toFinset := all_numbers ▸ Finset.mem_univ n
  obtain ⟨o, _, ho⟩ := List.mem_map.1 (List.mem_toFinset.1 hn)
  exact ⟨o, ho⟩

theorem routineInstr_wf (c : Config) (r : Routine) : (routineInstr r).wf c = true := by
  cases r <;> rfl

/-- The decoder gives a refined row's words to the row that refines it (30 R69). -/
theorem decodeFields_wf (c : Config) (w : Word) (o : Opcode) : (decodeFields c w o).wf c = true := by
  cases o
  case add | and | jsr => simp only [decodeFields]; split <;> rfl
  case jmp =>
    rw [decodeFields]
    split
    next => rfl
    next hb => exact decide_eq_true hb
  case trap =>
    rcases decodeTrap_cases c (bits w 0 8) with ⟨r, _, hd⟩ | ⟨unlisted, hd⟩ <;> rw [decodeFields, hd]
    · exact routineInstr_wf c r
    · exact decide_eq_true (trapTable_none.1 unlisted)
  all_goals rfl

/-- Under an admissible numbering every word decodes, as the fields of the one opcode it carries. -/
theorem decode_total {c : Config} (hc : c.wf) (w : Word) :
    ∃ o, opcodeBits w = c.opcodeOf.num o ∧ decode c w = .ok (decodeFields c w o) := by
  obtain ⟨o, ho⟩ := exists_opcode_num hc (opcodeBits w)
  exact ⟨o, ho.symm, Machine.decode_of_opcodeBits hc ho.symm⟩

/-- An opcode with a single format and no operand takes exactly the words that carry its number. -/
theorem decode_eq_iff_of_nullary {c : Config} {i : Instr} (hc : c.wf) (w : Word)
    (nullary : ∀ v, decodeFields c v i.opcode = i) :
    decode c w = .ok i ↔ w &&& 0xF000 = encNF (c.opcodeOf.num i.opcode) := by
  constructor
  · intro h
    obtain ⟨o, ho, rfl⟩ := decode_cases h
    rw [opcode_decodeFields, encNF_fields (opcodeName_some ho).symm]
  · intro h
    have number : opcodeBits w = c.opcodeOf.num i.opcode :=
      (bits_eq_of_and_eq h rfl).trans (opcodeBits_encNF _)
    rw [Machine.decode_of_opcodeBits hc number, nullary]

/-- Settles O3: no number is unused, and RTI and RES read nothing but the opcode. -/
theorem everyWordDecodes : Obligations.EveryWordDecodes := by
  refine ⟨fun c w hc => ?total, fun w => ?rti, fun w => ?res⟩
  case total =>
    obtain ⟨o, _, h⟩ := decode_total hc w
    exact ⟨_, h, decodeFields_wf c w o⟩
  case rti => exact decode_eq_iff_of_nullary default_wf w fun _ => rfl
  case res => exact decode_eq_iff_of_nullary default_wf w fun _ => rfl

/-! ### The rows of the opcode table (default numbers) -/

section
variable {w m x : Word}

/-- A word under a mask that covers the opcode field decodes as the opcode of that field. -/
theorem decode_of_row (o : Opcode) (h : w &&& m = x) (covered : bits m 12 4 = BitVec.allOnes 4 := by rfl)
    (number : bits x 12 4 = defaultConfig.opcodeOf.num o := by rfl) :
    decode defaultConfig w = .ok (decodeFields defaultConfig w o) :=
  Machine.decode_of_opcodeBits default_wf ((bits_eq_of_and_eq h covered).trans number)

/-- A word of one routine's row decodes to that routine. -/
theorem decode_of_routine_row (r : Routine)
    (h : w &&& 0xF0FF = encTV defaultConfig.opcodeOf.trap (defaultConfig.trapvecOf.vec r)) :
    decode defaultConfig w = .ok (routineInstr r) := by
  have vector : bits w 0 8 = defaultConfig.trapvecOf.vec r := (bits_eq_of_and_eq h rfl).trans (encTV_vec _ _)
  rw [decode_of_row .trap h rfl (opcodeBits_encTV _ _), decodeFields, vector, decodeTrap_vec default_wf]

end

/-- Settles O4: the mask's bits fix the opcode and the mode; JMP and TRAP keep the words of no refining row. -/
theorem decodeFollowsOpcodeTable : Obligations.DecodeFollowsOpcodeTable := by
  intro w
  refine ⟨fun h => ?addReg, fun h => ?addImm, fun h => ?andReg, fun h => ?andImm,
    decode_of_row .not, decode_of_row .br,
    fun h notRet => ?jmp, fun h => ?ret, fun h => ?jsr, fun h => ?jsrr,
    decode_of_row .ld, decode_of_row .ldi, decode_of_row .ldr, decode_of_row .lea,
    decode_of_row .st, decode_of_row .sti, decode_of_row .str,
    fun h unlisted => ?trap, decode_of_routine_row .getc, decode_of_routine_row .out, decode_of_routine_row .puts,
    decode_of_routine_row .inChar, decode_of_routine_row .putsp, decode_of_routine_row .halt,
    decode_of_row .rti, decode_of_row .res⟩
  case addReg =>
    have mode : bits w 5 1 = 0 := bits_eq_of_and_eq h rfl
    simp only [decode_of_row .add h, decodeFields, if_pos mode]
  case addImm =>
    have mode : bits w 5 1 = 1 := bits_eq_of_and_eq h rfl
    simp [decode_of_row .add h, decodeFields, mode]
  case andReg =>
    have mode : bits w 5 1 = 0 := bits_eq_of_and_eq h rfl
    simp only [decode_of_row .and h, decodeFields, if_pos mode]
  case andImm =>
    have mode : bits w 5 1 = 1 := bits_eq_of_and_eq h rfl
    simp [decode_of_row .and h, decodeFields, mode]
  case jmp =>
    have notR7 : bits w 6 3 ≠ 7 := by
      intro base
      have fields := encB6_fields_jr (bits_eq_of_and_eq h rfl : opcodeBits w = 0xC)
      rw [base] at fields
      exact notRet fields.symm
    simp only [decode_of_row .jmp h, decodeFields, if_neg notR7]
  case ret =>
    have base : bits w 6 3 = 7 := bits_eq_of_and_eq h rfl
    simp only [decode_of_row .jmp h, decodeFields, if_pos base]
  case jsr =>
    have mode : bits w 11 1 = 1 := bits_eq_of_and_eq h rfl
    simp only [decode_of_row .jsr h, decodeFields, if_pos mode]
  case jsrr =>
    have mode : bits w 11 1 = 0 := bits_eq_of_and_eq h rfl
    simp [decode_of_row .jsr h, decodeFields, mode]
  case trap =>
    rw [decode_of_row .trap h, decodeFields, decodeTrap, trapTable_none.2 unlisted]

/-- Settles O5: the decoder run on the six words. -/
theorem writtenWordsDecode : Obligations.WrittenWordsDecode := by
  unfold Obligations.WrittenWordsDecode
  decide

end Sys2Proof
end

section
/-! Console input and the poll (spec/00_scope.md R14, spec/20_memory.md R45 to R48): each `ConIn` uses up one answer of
the host, and only a read of KBSR makes one. -/

namespace Sys2Proof.Machine

section
variable (s : State)

/-! ### The poll -/

theorem kbPoll_sameButPolled : SameButPolled s s.kbPoll := by
  rw [← afterRead_kbsr]
  exact afterRead_state s s.cfg.kbsrAddr

/-- A poll that finds a character makes the pair ready with it (20 R46). -/
theorem kbPoll_of_some {c : Byte} (h : s.conIn.1 = some c) :
    s.kbPoll = (s.conIn.2.memWrite s.cfg.kbsrAddr s.cfg.kbsrReady).memWrite s.cfg.kbdrAddr (zext8 c) := by
  rw [State.kbPoll, h, State.refreshKb, conIn_cfg]

/-- A poll that finds none writes KBSR alone (20 R46). -/
theorem kbPoll_of_none (h : s.conIn.1 = none) : s.kbPoll = s.conIn.2.memWrite s.cfg.kbsrAddr s.cfg.kbsrIdle := by
  rw [State.kbPoll, h, State.refreshKb, conIn_cfg]

/-- A poll's only use of the console is its one `ConIn`. -/
theorem kbPoll_sameConsole : SameConsole s.conIn.2 s.kbPoll := by
  obtain ⟨m, h⟩ := refreshKb_state s.conIn.2 s.conIn.1
  rw [State.kbPoll, h]
  exact ⟨rfl, rfl, rfl⟩

theorem kbPoll_sameCells : SameCellsBut [s.cfg.kbsrAddr, s.cfg.kbdrAddr] s s.kbPoll := by
  intro a ha
  simp only [List.mem_cons, List.not_mem_nil, or_false, not_or] at ha
  rw [← afterRead_kbsr, afterRead_cell_ne s _ ha.1 ha.2]

/-! ### How many answers have been taken -/

/-- The free answers taken less the fixed ones left: every `ConIn` adds one (00 R14; log 6). -/
def State.inputTaken (s : State) : Int := s.draws - s.answers.length

@[simp] theorem inputTaken_conIn : s.conIn.2.inputTaken = s.inputTaken + 1 := by
  cases h : s.answers with
  | nil => simp [conIn_nil s h, State.inputTaken, h]
  | cons a rest =>
    simp only [conIn_cons s h, State.inputTaken, h, List.length_cons]
    omega

theorem inputTaken_congr {s t : State} (ha : t.answers = s.answers) (hd : t.draws = s.draws) :
    t.inputTaken = s.inputTaken := by
  rw [State.inputTaken, State.inputTaken, ha, hd]

theorem inputTaken_kbPoll : s.kbPoll.inputTaken = s.inputTaken + 1 := by
  obtain ⟨ha, hd, _⟩ := kbPoll_sameConsole s
  rw [inputTaken_congr ha hd, inputTaken_conIn]

theorem inputTaken_afterRead (a : Word) :
    (s.afterRead a).inputTaken = s.inputTaken + if a = s.cfg.kbsrAddr then 1 else 0 := by
  unfold State.afterRead
  split
  · exact inputTaken_kbPoll s
  · simp

/-! ### A sequence of polling reads -/

/-- The state that polling reads of these addresses, in order, leave. -/
def State.afterReads (s : State) : List Word → State
  | [] => s
  | a :: as => (s.afterRead a).afterReads as

theorem afterReads_sameButPolled (as : List Word) : ∀ s : State, SameButPolled s (s.afterReads as) := by
  induction as with
  | nil => exact sameButPolled_refl
  | cons a as ih =>
    intro s
    obtain ⟨m, q, d, h⟩ := afterRead_state s a
    obtain ⟨m', q', d', h'⟩ := ih (s.afterRead a)
    exact ⟨m', q', d', by rw [State.afterReads, h', h]⟩

theorem afterReads_mem_wf (as : List Word) : ∀ {s : State}, s.mem.wf → (s.afterReads as).mem.wf := by
  induction as with
  | nil => exact fun h => h
  | cons a as ih => exact fun h => ih (afterRead_mem_wf _ a h)

/-- Reads of addresses other than KBSR change nothing. -/
theorem afterReads_of_not_mem {as : List Word} (h : s.cfg.kbsrAddr ∉ as) : s.afterReads as = s := by
  induction as with
  | nil => rfl
  | cons a as ih =>
    rw [List.mem_cons, not_or] at h
    rw [State.afterReads, afterRead_of_ne s (Ne.symm h.1), ih h.2]

/-- Reads change at most the two keyboard cells. -/
theorem afterReads_cell_ne {a : Word} (hs : a ≠ s.cfg.kbsrAddr) (hd : a ≠ s.cfg.kbdrAddr) (as : List Word) :
    (s.afterReads as).cell a = s.cell a := by
  induction as generalizing s with
  | nil => rfl
  | cons b as ih =>
    rw [State.afterReads, ih (s.afterRead b) (by simpa using hs) (by simpa using hd), afterRead_cell_ne s b hs hd]

/-- One answer is taken for every read of KBSR. -/
theorem inputTaken_afterReads (as : List Word) :
    (s.afterReads as).inputTaken = s.inputTaken + as.count s.cfg.kbsrAddr := by
  induction as generalizing s with
  | nil => simp [State.afterReads]
  | cons a as ih =>
    rw [State.afterReads, ih, inputTaken_afterRead, afterRead_cfg, List.count_cons]
    by_cases h : a = s.cfg.kbsrAddr
    · simp only [h, if_true, beq_self_eq_true]
      omega
    · simp [h]

end

/-! ### The statements -/

/-- Settles O20: the two cases of the host's answers; nothing else is touched. -/
theorem conInTakesTheNextAnswer : Obligations.ConInTakesTheNextAnswer := by
  refine fun s => ⟨fun a rest h => ?fixed, fun h => ?free, fun r _ => conIn_reg s r, conIn_pc s, conIn_cond s,
    fun a _ => conIn_cell s a, conIn_out s, ⟨conIn_run s, conIn_te s, conIn_started s, conIn_cfg s⟩⟩
  case fixed =>
    rw [conIn_cons s h]
    exact ⟨rfl, rfl, rfl⟩
  case free =>
    rw [conIn_nil s h]
    exact ⟨h, rfl⟩

/-- Settles O19: a read elsewhere is plain; a read of KBSR is a poll, whose cells follow the host's answer. -/
theorem pollingReadRefreshesThePair : Obligations.PollingReadRefreshesThePair := by
  refine ⟨fun s a => ⟨memRead_of_ne s, fun h => ?polled⟩, fun s hk => ⟨fun c hc => ?ready, fun hc => ?idle, ?frame⟩⟩
  case polled => rw [h, State.memRead, afterRead_kbsr]
  case ready =>
    rw [kbPoll_of_some s hc]
    exact ⟨by simp [memWrite_cell, hk], memWrite_cell_same _ _ _⟩
  case idle =>
    rw [kbPoll_of_none s hc]
    exact ⟨memWrite_cell_same _ _ _, by simp [memWrite_cell, hk.symm]⟩
  case frame =>
    obtain ⟨m, q, d, h⟩ := kbPoll_sameButPolled s
    exact ⟨kbPoll_sameCells s, fun r _ => by rw [h]; rfl, by rw [h], by rw [h],
      by rw [h]; exact ⟨rfl, rfl, rfl, rfl⟩, kbPoll_sameConsole s⟩

end Sys2Proof.Machine
end

section
/-! What an instruction does to each part of the state, over all instructions: memory and the console by its reads and
its store, the run state and the engine by one case analysis, the registers by the table of spec/10_state.md R21. -/

namespace Sys2Proof.Machine

/-! ### Memory and the console -/

/-- The store of an instruction that has one. -/
def State.storing (s : State) : Option (Word × Word) → State
  | some (a, v) => s.memWrite a v
  | none => s

section
variable {i : Instr} {s t : State}

/-- But for the registers, the pc, the flags, the run state and the engine, an instruction is its polling reads and then
its store. -/
theorem exec_eq_reads_then_store (h : exec i s = .next t) :
    ∃ x p f r e, t = { (s.afterReads (readAddrs i s)).storing (storeOf i s) with
      x := x, pc := p, cond := f, run := r, te := e } := by
  cases i
  case trap v =>
    cases h
    rcases enterTrap_cases s v with ⟨r, _, ht⟩ | ⟨_, _, ht⟩ | ⟨_, _, ht⟩ <;> rw [ht]
    all_goals exact ⟨_, _, _, _, _, rfl⟩
  case br nzp off =>
    cases (execBr_eq_setPc nzp off s).symm.trans h
    exact ⟨_, _, _, _, _, rfl⟩
  case sti sr off =>
    cases (execSti_eq sr off s).symm.trans h
    exact ⟨_, _, _, _, _, rfl⟩
  all_goals
    cases h
    exact ⟨_, _, _, _, _, rfl⟩

theorem storing_mem_wf (st : Option (Word × Word)) (h : s.mem.wf) : (s.storing st).mem.wf := by
  cases st
  · exact h
  · exact write_wf _ _ h

/-- An instruction keeps the parameters and the start. -/
theorem exec_cfg_started (h : exec i s = .next t) : t.cfg = s.cfg ∧ t.started = s.started := by
  obtain ⟨x, p, f, r, e, rfl⟩ := exec_eq_reads_then_store h
  obtain ⟨m, q, d, hu⟩ := afterReads_sameButPolled (readAddrs i s) s
  rw [hu]
  cases storeOf i s <;> exact ⟨rfl, rfl⟩

/-- An instruction takes the answers that its reads of KBSR take, and emits nothing. -/
theorem exec_console (h : exec i s = .next t) :
    t.answers = (s.afterReads (readAddrs i s)).answers ∧ t.draws = (s.afterReads (readAddrs i s)).draws ∧
      t.out = s.out := by
  obtain ⟨x, p, f, r, e, rfl⟩ := exec_eq_reads_then_store h
  obtain ⟨m, q, d, hu⟩ := afterReads_sameButPolled (readAddrs i s) s
  rw [hu]
  cases storeOf i s <;> exact ⟨rfl, rfl, rfl⟩

theorem exec_mem_wf (h : exec i s = .next t) (hm : s.mem.wf) : t.mem.wf := by
  obtain ⟨x, p, f, r, e, rfl⟩ := exec_eq_reads_then_store h
  exact storing_mem_wf _ (afterReads_mem_wf _ hm)

/-- A cell the instruction does not store to is what its reads leave. -/
theorem exec_cell_of_not_stored (h : exec i s = .next t) {a : Word}
    (ha : ∀ ea v, storeOf i s = some (ea, v) → a ≠ ea) : t.cell a = (s.afterReads (readAddrs i s)).cell a := by
  obtain ⟨x, p, f, r, e, rfl⟩ := exec_eq_reads_then_store h
  cases hst : storeOf i s with
  | none => rfl
  | some st =>
    obtain ⟨ea, v⟩ := st
    exact read_write_ne _ v (ha ea v hst)

/-- The cell the instruction stores to holds the value stored. -/
theorem exec_cell_of_stored (h : exec i s = .next t) {ea v : Word} (hst : storeOf i s = some (ea, v)) :
    t.cell ea = v := by
  obtain ⟨x, p, f, r, e, rfl⟩ := exec_eq_reads_then_store h
  rw [hst]
  exact read_write_same _ ea v

end

/-! ### The run state and the engine -/

/-- An instruction keeps the run state and the engine, or enters a routine, or halts: RTI, RES, or a TRAP of an unlisted
vector where that is a fault (10 R27, 40 R87). -/
theorem exec_control {i : Instr} {s t : State} (h : exec i s = .next t) :
    (t.run = s.run ∧ t.te = s.te) ∨
    (∃ r, t = s.enterRoutine r) ∨
    (i = .rti ∧ t = s.raiseBadOpcode s.cfg.opcodeOf.rti) ∨
    (i = .res ∧ t = s.raiseBadOpcode s.cfg.opcodeOf.res) ∨
    (∃ v, i = .trap v ∧ trapTable s.cfg.trapvecOf v = none ∧ s.cfg.unknownTrap = .fault ∧
      t = s.saveReturn.setRun (.halted (.badTrap v (s.pc - 1)))) := by
  cases i
  case trap v =>
    cases h
    rcases enterTrap_cases s v with ⟨r, _, ht⟩ | ⟨_, _, ht⟩ | ⟨unlisted, hfault, ht⟩
    · exact .inr (.inl ⟨r, ht⟩)
    · exact .inl (by rw [ht]; exact ⟨rfl, rfl⟩)
    · exact .inr (.inr (.inr (.inr ⟨v, rfl, unlisted, hfault, ht⟩)))
  case getc | out | puts | inChar | putsp | halt =>
    cases h
    exact .inr (.inl ⟨_, rfl⟩)
  case rti =>
    cases h
    exact .inr (.inr (.inl ⟨rfl, rfl⟩))
  case res =>
    cases h
    exact .inr (.inr (.inr (.inl ⟨rfl, rfl⟩)))
  case br nzp off =>
    cases (execBr_eq_setPc nzp off s).symm.trans h
    exact .inl ⟨rfl, rfl⟩
  case addReg | addImm | andReg | andImm | notReg | lea | jmp | ret | jsr | jsrr | st | str =>
    cases h
    exact .inl ⟨rfl, rfl⟩
  case ld | ldi | ldr | sti =>
    cases h
    exact .inl ⟨by simp [loadFrom_eq], by simp [loadFrom_eq]⟩

/-! ### Trap entry -/

theorem exec_routineInstr (r : Routine) (s : State) : exec (routineInstr r) s = .next (s.enterRoutine r) := by
  cases r <;> rfl

/-- Trap entry leaves everything but R7 and the engine as it was. -/
theorem enterRoutine_frame (s : State) (r : Routine) :
    SameRegsBut [7] s (s.enterRoutine r) ∧ (s.enterRoutine r).pc = s.pc ∧ (s.enterRoutine r).cond = s.cond ∧
      SameCellsBut [] s (s.enterRoutine r) ∧ SameConsole s (s.enterRoutine r) ∧ (s.enterRoutine r).run = s.run ∧
      (s.enterRoutine r).started = s.started ∧ (s.enterRoutine r).cfg = s.cfg :=
  ⟨saveReturn_sameRegsBut s, rfl, rfl, fun _ _ => rfl, ⟨rfl, rfl, rfl⟩, rfl, rfl, rfl⟩

theorem enterRoutine_te (s : State) (r : Routine) : (s.enterRoutine r).te = startRoutine r (s.reg 0) := by
  rw [enterRoutine_eq, setTe_te]

/-! ### The registers (10 R21) -/

/-- An instruction writes no register but those of its row. -/
theorem exec_sameRegsBut {i : Instr} {s t : State} (h : exec i s = .next t) : SameRegsBut (writtenRegs i) s t := by
  cases i
  case addReg | addImm | andReg | andImm | notReg | lea =>
    cases h
    exact writeDest_sameRegsBut s _ _
  case ld | ldr | ldi =>
    cases h
    intro r hr
    exact (writeDest_sameRegsBut _ _ _ r hr).trans (by simp)
  case br nzp off =>
    cases (execBr_eq_setPc nzp off s).symm.trans h
    exact fun _ _ => rfl
  case sti sr off =>
    cases h
    exact fun r _ => by simp
  case jmp | ret | st | str | rti | res =>
    cases h
    exact fun _ _ => rfl
  case jsr | jsrr | getc | out | puts | inChar | putsp | halt =>
    cases h
    exact saveReturn_sameRegsBut s
  case trap v =>
    cases h
    rcases enterTrap_cases s v with ⟨r, _, ht⟩ | ⟨_, _, ht⟩ | ⟨_, _, ht⟩ <;> rw [ht] <;>
      exact saveReturn_sameRegsBut s

section
variable (s : State) {r : Reg} (v : Word)

/-! Operations where another register held another value. -/

@[simp] theorem setReg_setReg_same (w : Word) : (s.setReg r v).setReg r w = s.setReg r w := by
  simp [State.setReg]

theorem setReg_setReg_comm {d : Reg} (w : Word) (h : r ≠ d) :
    (s.setReg r v).setReg d w = (s.setReg d w).setReg r v := by
  have hne : r.toNat ≠ d.toNat := fun e => h (BitVec.eq_of_toNat_eq e)
  simp only [State.setReg, Vector.set_comm _ _ hne]

@[simp] theorem setReg_conIn : (s.setReg r v).conIn = (s.conIn.1, s.conIn.2.setReg r v) := by
  cases h : s.answers with
  | nil => rw [conIn_nil s h, conIn_nil (s.setReg r v) h]; rfl
  | cons a rest => rw [conIn_cons s h, conIn_cons (s.setReg r v) h]; rfl

@[simp] theorem setReg_refreshKb (c : Option Byte) : (s.setReg r v).refreshKb c = (s.refreshKb c).setReg r v := by
  cases c <;> rfl

@[simp] theorem setReg_afterRead (a : Word) : (s.setReg r v).afterRead a = (s.afterRead a).setReg r v := by
  by_cases h : a = s.cfg.kbsrAddr
  · simp [State.afterRead, State.kbPoll, h]
  · rw [afterRead_of_ne s h, afterRead_of_ne (s.setReg r v) h]

@[simp] theorem setReg_memRead (a : Word) :
    (s.setReg r v).memRead a = ((s.memRead a).1, (s.memRead a).2.setReg r v) := by
  simp [State.memRead]

/-- A destination's earlier value is lost. -/
@[simp] theorem setReg_writeDest_same (w : Word) : (s.setReg r v).writeDest r w = s.writeDest r w := by
  rw [writeDest_eq, writeDest_eq, setReg_setReg_same, setReg_cfg]

theorem setReg_writeDest_of_ne {d : Reg} (w : Word) (h : r ≠ d) :
    (s.setReg r v).writeDest d w = (s.writeDest d w).setReg r v := by
  rw [writeDest_eq, writeDest_eq, setReg_setReg_comm s v w h]
  rfl

@[simp] theorem setReg_loadFrom_same (a : Word) : (s.setReg r v).loadFrom r a = s.loadFrom r a := by
  simp [State.loadFrom]

theorem setReg_loadFrom_of_ne {d : Reg} (a : Word) (h : r ≠ d) :
    (s.setReg r v).loadFrom d a = (s.loadFrom d a).setReg r v := by
  simp [State.loadFrom, setReg_writeDest_of_ne _ v _ h]

/-- R7's earlier value is lost in a call. -/
@[simp] theorem setReg7_saveReturn : (s.setReg 7 v).saveReturn = s.saveReturn :=
  setReg_setReg_same s v s.pc

theorem setReg_saveReturn_of_ne (h : r ≠ 7) : (s.setReg r v).saveReturn = s.saveReturn.setReg r v :=
  setReg_setReg_comm s v s.pc h

@[simp] theorem setReg7_enterRoutine (k : Routine) : (s.setReg 7 v).enterRoutine k = s.enterRoutine k := by
  rw [State.enterRoutine, State.enterRoutine, setReg7_saveReturn]

/-- A routine starts the same when R0 does, or when it does not look at R0. -/
theorem setReg_enterRoutine_of_ne {k : Routine} (h7 : r ≠ 7)
    (start : startRoutine k ((s.setReg r v).reg 0) = startRoutine k (s.reg 0)) :
    (s.setReg r v).enterRoutine k = (s.enterRoutine k).setReg r v := by
  rw [enterRoutine_eq, enterRoutine_eq, start, setReg_pc, setReg_setReg_comm s v s.pc h7]
  rfl

theorem setReg_unknownTrap (w : Byte) : (s.setReg r v).unknownTrap w = (s.unknownTrap w).setReg r v := by
  unfold State.unknownTrap
  rw [setReg_cfg]
  cases s.cfg.unknownTrap <;> rfl

@[simp] theorem setReg7_enterTrap (w : Byte) : (s.setReg 7 v).enterTrap w = s.enterTrap w := by
  simp only [State.enterTrap, setReg_cfg, setReg7_enterRoutine, setReg7_saveReturn]

theorem setReg_enterTrap_of_ne (w : Byte) (h7 : r ≠ 7) (h0 : r ≠ 0) :
    (s.setReg r v).enterTrap w = (s.enterTrap w).setReg r v := by
  unfold State.enterTrap
  rw [setReg_cfg]
  cases trapTable s.cfg.trapvecOf w with
  | some k => exact setReg_enterRoutine_of_ne s v h7 (by rw [setReg_reg_ne s v h0.symm])
  | none => exact (congrArg (State.unknownTrap · w) (setReg_saveReturn_of_ne s v h7)).trans (setReg_unknownTrap _ v w)

end

/-- A register that an instruction writes and does not read has no influence on it. -/
theorem exec_setReg_of_written {i : Instr} {r : Reg} (s : State) (v : Word) (hw : r ∈ writtenRegs i)
    (hr : r ∉ readRegs i) : exec i (s.setReg r v) = exec i s := by
  have keep : ∀ a ∈ readRegs i, (s.setReg r v).reg a = s.reg a :=
    fun a ha => setReg_reg_ne s v fun e => hr (e ▸ ha)
  cases i
  case br | jmp | ret | st | sti | str | rti | res => cases hw
  all_goals obtain rfl := List.mem_singleton.1 hw
  case addReg | andReg =>
    obtain ⟨ka, kb, -⟩ := List.forall_mem_cons.1 keep |>.imp id List.forall_mem_cons.1
    simp only [exec, execAddReg, execAndReg, ka, kb, setReg_writeDest_same]
  case addImm | andImm | notReg =>
    have ka := keep _ (List.mem_singleton_self _)
    simp only [exec, execAddImm, execAndImm, execNot, ka, setReg_writeDest_same]
  case ldr =>
    have ka := keep _ (List.mem_singleton_self _)
    simp only [exec, execLdr, ka, setReg_loadFrom_same]
  case ld | ldi | lea => simp [exec, execLd, execLdi, execLea]
  case jsr | jsrr => simp only [exec, execJsr, execJsrr, setReg_setReg_same, setReg_pc]
  case trap w => exact congrArg Host.Outcome.next (setReg7_enterTrap s v w)
  case getc | out | puts | inChar | putsp | halt => exact congrArg Host.Outcome.next (setReg7_enterRoutine s v _)

/-- A register that an instruction neither reads nor writes is handed on, and has no other influence on it. -/
theorem exec_setReg_of_not_written {i : Instr} {r : Reg} {s t : State} (v : Word) (hw : r ∉ writtenRegs i)
    (hr : r ∉ readRegs i) (h : exec i s = .next t) : exec i (s.setReg r v) = .next (t.setReg r v) := by
  have keep : ∀ a ∈ readRegs i, (s.setReg r v).reg a = s.reg a :=
    fun a ha => setReg_reg_ne s v fun e => hr (e ▸ ha)
  have other : ∀ d ∈ writtenRegs i, r ≠ d := fun d hd e => hw (e ▸ hd)
  cases i
  case br nzp off =>
    cases (execBr_eq_setPc nzp off s).symm.trans h
    exact execBr_eq_setPc nzp off (s.setReg r v)
  case sti sr off =>
    have ka := keep _ (List.mem_singleton_self _)
    cases (execSti_eq sr off s).symm.trans h
    rw [exec, execSti_eq, setReg_pc, setReg_afterRead, setReg_memRead, ka]
    rfl
  all_goals cases h
  case addReg | andReg =>
    obtain ⟨ka, kb, -⟩ := List.forall_mem_cons.1 keep |>.imp id List.forall_mem_cons.1
    simp only [exec, execAddReg, execAndReg, ka, kb, setReg_writeDest_of_ne s v _ (other _ (List.mem_singleton_self _))]
  case addImm | andImm | notReg =>
    have ka := keep _ (List.mem_singleton_self _)
    simp only [exec, execAddImm, execAndImm, execNot, ka,
      setReg_writeDest_of_ne s v _ (other _ (List.mem_singleton_self _))]
  case lea => exact congrArg Host.Outcome.next (setReg_writeDest_of_ne s v _ (other _ (List.mem_singleton_self _)))
  case ld => exact congrArg Host.Outcome.next (setReg_loadFrom_of_ne s v _ (other _ (List.mem_singleton_self _)))
  case ldr =>
    have ka := keep _ (List.mem_singleton_self _)
    simp only [exec, execLdr, ka, setReg_loadFrom_of_ne s v _ (other _ (List.mem_singleton_self _))]
  case ldi =>
    simp only [exec, execLdi, setReg_pc, setReg_memRead,
      setReg_loadFrom_of_ne _ v _ (other _ (List.mem_singleton_self _))]
  case jmp | ret | st =>
    have ka := keep _ (List.mem_singleton_self _)
    simp only [exec, execJmp, execRet, execSt, ka]
    rfl
  case str =>
    obtain ⟨ka, kb, -⟩ := List.forall_mem_cons.1 keep |>.imp id List.forall_mem_cons.1
    simp only [exec, execStr, ka, kb]
    rfl
  case jsr off =>
    have saved := setReg_saveReturn_of_ne s v (other 7 (List.mem_singleton_self _))
    exact congrArg (fun u => Host.Outcome.next (u.setPc (pcRelative s.pc off))) saved
  case jsrr b =>
    have saved := setReg_saveReturn_of_ne s v (other 7 (List.mem_singleton_self _))
    have kb : (s.saveReturn.setReg r v).reg b = s.saveReturn.reg b :=
      setReg_reg_ne _ v (List.ne_of_not_mem_cons hr).symm
    exact congrArg Host.Outcome.next
      ((congrArg (fun u => u.setPc (u.reg b)) saved).trans (congrArg (State.setPc _) kb))
  case rti | res => rfl
  case trap w =>
    exact congrArg Host.Outcome.next (setReg_enterTrap_of_ne s v w (other 7 (List.mem_singleton_self _))
      (List.ne_of_not_mem_cons hr))
  case out | puts | putsp =>
    have ka := keep _ (List.mem_singleton_self _)
    exact congrArg Host.Outcome.next (setReg_enterRoutine_of_ne s v (other 7 (List.mem_singleton_self _))
      (congrArg (startRoutine _) ka))
  case getc | inChar | halt =>
    exact congrArg Host.Outcome.next (setReg_enterRoutine_of_ne s v (other 7 (List.mem_singleton_self _)) rfl)

/-! ### The statements -/

/-- A value is zero, negative or positive, and `flagsOf` answers that flag. -/
theorem flagsOf_sign (c : Config) (v : Word) :
    (v.toInt = 0 → flagsOf c v = flagBit c.condZ) ∧ (v.toInt < 0 → flagsOf c v = flagBit c.condN) ∧
      (0 < v.toInt → flagsOf c v = flagBit c.condP) := by
  have zero : v = 0 ↔ v.toInt = 0 := by rw [← BitVec.toInt_inj]; rfl
  have sign : v.msb = true ↔ v.toInt < 0 := by rw [BitVec.msb_eq_toInt, decide_eq_true_iff]
  simp only [flagsOf, zero, sign]
  refine ⟨fun h => if_pos h, fun h => ?_, fun h => ?_⟩
  · rw [if_neg (by omega), if_pos h]
  · rw [if_neg (by omega), if_neg (by omega)]

/-- Settles O10: an instruction with a destination ends in `writeDest`, which ends in `setcc`; the flag is that of the
value's sign. -/
theorem setccWritesTheOneFlag : Obligations.SetccWritesTheOneFlag := by
  refine ⟨fun i s t dr hd h => ?last, fun s i => ?flag⟩
  case last =>
    obtain ⟨u, v, _, hexec⟩ := exec_eq_writeDest s hd
    cases h.symm.trans hexec
    rfl
  case flag =>
    obtain ⟨zero, negative, positive⟩ := flagsOf_sign s.cfg (s.reg i)
    refine ⟨zero, negative, positive, fun hdef => ?_, fun _ _ => rfl, rfl, fun _ _ => rfl, ⟨rfl, rfl, rfl⟩,
      ⟨rfl, rfl, rfl, rfl⟩⟩
    rw [setcc_eq, setCond_cond]
    rw [hdef] at zero negative positive ⊢
    split
    next h => exact zero h
    next h0 =>
      split
      next h => exact negative h
      next h => exact positive (by omega)

/-- Settles O22: only the store and the reads of KBSR reach memory. -/
theorem memoryFrameOfEveryInstruction : Obligations.MemoryFrameOfEveryInstruction := by
  intro i s t h a notStored notPolled
  rw [exec_cell_of_not_stored h notStored]
  by_cases hk : s.cfg.kbsrAddr ∈ readAddrs i s
  · exact afterReads_cell_ne s (notPolled hk).1 (notPolled hk).2 _
  · rw [afterReads_of_not_mem s hk]

/-- Settles O23: the stored cell holds the value, and a fetch reads the cell, after a poll at KBSR. -/
theorem storeSeenByNextFetch : Obligations.StoreSeenByNextFetch := by
  intro i s t ea v h hst
  have stored := exec_cell_of_stored h hst
  refine ⟨stored, fun hpc hne => ?plain, fun hpc => ?polled⟩
  case plain => rw [fetch_eq, hpc, afterRead_of_ne t hne, stored]
  case polled => rw [fetch_eq, hpc, afterRead_kbsr]

/-- Settles O31: the decoder finds the routine of the vector; the row and TRAP of the vector both enter it. -/
theorem trapEntersTheRoutine : Obligations.TrapEntersTheRoutine := by
  refine ⟨fun c w hc hop r hv => ?word, fun r s => ?entry, fun r s hc => ?byVector⟩
  case word => rw [decode_of_opcodeBits hc (o := .trap) hop, decodeFields, hv, decodeTrap_vec hc]
  case entry =>
    refine ⟨_, exec_routineInstr r s, enterRoutine_reg7 s r, ?_, enterRoutine_frame s r⟩
    rw [enterRoutine_te]
    cases r <;> rfl
  case byVector => rw [exec_routineInstr, exec, execTrap, State.enterTrap, trapTable_vec hc]

theorem trapTable_eq_none {c : Config} {v : Byte} (h : ∀ r, v ≠ c.trapvecOf.vec r) :
    trapTable c.trapvecOf v = none := by
  rw [trapTable_none]
  intro hv
  obtain ⟨r, _, hr⟩ := List.mem_map.1 hv
  exact h r hr.symm

/-- Settles O32: no routine has the vector, so TRAP saves the return address and follows `UNKNOWN_TRAP`. -/
theorem unlistedTrapVector : Obligations.UnlistedTrapVector := by
  refine ⟨fun c w hc hop hv => ?word, fun v s hv => ⟨_, rfl, enterTrap_reg7 s v, ?effect⟩⟩
  case word => rw [decode_of_opcodeBits hc (o := .trap) hop, decodeFields, decodeTrap, trapTable_eq_none hv]
  case effect =>
    have unlisted := trapTable_eq_none hv
    rcases enterTrap_cases s v with ⟨r, listed, _⟩ | ⟨_, hnoop, ht⟩ | ⟨_, hfault, ht⟩
    · simp [unlisted] at listed
    · rw [ht]
      exact ⟨fun _ => rfl, fun hf => by simp [hnoop] at hf, saveReturn_sameRegsBut s, rfl, rfl, fun _ _ => rfl,
        ⟨rfl, rfl, rfl⟩, rfl, rfl, rfl⟩
    · rw [ht]
      exact ⟨fun hn => by simp [hfault] at hn, fun _ => rfl, saveReturn_sameRegsBut s, rfl, rfl, fun _ _ => rfl,
        ⟨rfl, rfl, rfl⟩, rfl, rfl, rfl⟩

end Sys2Proof.Machine
end

section
/-! The trap engine step by step (spec/44_trap.md R133 to R141): the moves of the engine as a relation, and each
routine's step in full. -/

namespace Sys2Proof.Machine

/-! ### Reading a character -/

section
variable (s : State) (e : TrapEngine)

/-- `s` after a `ConIn` with R0 written and the engine in `e`, as GETC and IN's read leave it. -/
def State.readInto0 (s : State) (v : Word) (e : TrapEngine) : State := (s.conIn.2.setReg 0 v).setTe e

@[simp] theorem readInto0_reg0 (v : Word) : (s.readInto0 v e).reg 0 = v := setReg_reg_same s.conIn.2 0 v

theorem readInto0_sameRegsBut (v : Word) : SameRegsBut [0] s (s.readInto0 v e) := by
  intro r hr
  exact (setReg_reg_ne s.conIn.2 v (List.ne_of_not_mem_cons hr)).trans (conIn_reg s r)

theorem readInto0_sameConsole (v : Word) : SameConsole s.conIn.2 (s.readInto0 v e) := ⟨rfl, rfl, rfl⟩

theorem readInto0_out (v : Word) : (s.readInto0 v e).out = s.out := conIn_out s

/-- A character read changes R0, the engine and the input alone. -/
theorem readInto0_frame (v : Word) : (s.readInto0 v e).pc = s.pc ∧ (s.readInto0 v e).cond = s.cond ∧
    SameCellsBut [] s (s.readInto0 v e) ∧ (s.readInto0 v e).run = s.run ∧ (s.readInto0 v e).started = s.started ∧
    (s.readInto0 v e).cfg = s.cfg :=
  ⟨conIn_pc s, conIn_cond s, fun a _ => conIn_cell s a, conIn_run s, conIn_started s, conIn_cfg s⟩

end

/-! ### The moves of the engine -/

/-- The pointer of PUTS and PUTSP, the routines that read memory (10 R29). -/
def TrapEngine.ptr : TrapEngine → Option Word
  | .puts p => some p
  | .putsp p _ => some p
  | .idle | .getc | .out | .inPrompt _ | .inEcho _ | .halt _ => none

theorem ptr_eq_some {e : TrapEngine} {p : Word} (h : e.ptr = some p) : e = .puts p ∨ ∃ half, e = .putsp p half := by
  cases e <;> cases h
  · exact .inl rfl
  · exact .inr ⟨_, rfl⟩

/-- One engine step from `s`, by what it does (44 R133 to R139). -/
inductive EngineMove (s : State) : State → Prop
  | idle (hte : s.te = .idle) : EngineMove s s
  | getc (hte : s.te = .getc) : EngineMove s (s.readInto0 (charWord s.cfg s.conIn.1) .idle)
  | out (hte : s.te = .out) : EngineMove s ((s.conOut (lowByte (s.reg 0))).setTe .idle)
  | stringEnd {p : Word} (hte : s.te.ptr = some p) : EngineMove s ((s.trapRead p).2.setTe .idle)
  | stringByte {p p' : Word} {e : TrapEngine} (b : Byte) (hte : s.te.ptr = some p) (he : e.ptr = some p') :
      EngineMove s (((s.trapRead p).2.conOut b).setTe e)
  | promptByte {k : Nat} {b : Byte} (hte : s.te = .inPrompt k) (hb : s.cfg.inPrompt[k]? = some b) :
      EngineMove s ((s.conOut b).setTe (.inPrompt (k + 1)))
  | readChar {k : Nat} {c : Byte} (hte : s.te = .inPrompt k) (hk : s.cfg.inPrompt.length ≤ k) :
      EngineMove s (s.readInto0 (zext8 c) (.inEcho c))
  | readNone {k : Nat} (hte : s.te = .inPrompt k) (hk : s.cfg.inPrompt.length ≤ k) :
      EngineMove s (s.readInto0 s.cfg.noChar .idle)
  | echo {c : Byte} (hte : s.te = .inEcho c) : EngineMove s ((s.conOut c).setTe .idle)
  | noticeByte {k : Nat} {b : Byte} (hte : s.te = .halt k) (hb : s.cfg.haltNotice[k]? = some b) :
      EngineMove s ((s.conOut b).setTe (.halt (k + 1)))
  | halt {k : Nat} (hte : s.te = .halt k) (hk : s.cfg.haltNotice.length ≤ k) :
      EngineMove s ((s.setTe .idle).setRun (.halted .haltTrap))

/-- The engine makes no other move. -/
theorem trapStep_move (s : State) : EngineMove s (trapStep s) := by
  unfold trapStep
  split
  next hte => exact .idle hte
  next hte => exact .getc hte
  next hte => exact .out hte
  next p hte =>
    unfold trapPuts
    split
    · exact .stringEnd (by rw [hte]; rfl)
    · exact .stringByte (p' := p + 1) _ (by rw [hte]; rfl) rfl
  next p half hte =>
    unfold trapPutsp
    split
    · exact .stringEnd (by rw [hte]; rfl)
    · cases half
      · exact .stringByte (p' := p) _ (by rw [hte]; rfl) rfl
      · exact .stringByte (p' := p + 1) _ (by rw [hte]; rfl) rfl
  next k hte =>
    unfold trapInPrompt
    split
    next b hb => exact .promptByte hte hb
    next hk =>
      unfold trapInRead
      split
      · exact .readChar hte (List.getElem?_eq_none_iff.1 hk)
      · exact .readNone hte (List.getElem?_eq_none_iff.1 hk)
  next c hte => exact .echo hte
  next k hte =>
    unfold trapHalt
    split
    next b hb => exact .noticeByte hte hb
    next hk => exact .halt hte (List.getElem?_eq_none_iff.1 hk)

/-! ### What every move keeps -/

section
variable {s t : State}

/-- The engine writes no register but R0, and that in GETC and IN's read alone (10 R21). -/
theorem EngineMove.sameRegs (h : EngineMove s t) : SameRegsBut [0] s t ∧
    (t.reg 0 ≠ s.reg 0 → s.te = .getc ∨ ∃ k, s.te = .inPrompt k ∧ s.cfg.inPrompt.length ≤ k) := by
  have trapRead_reg (p : Word) (r : Reg) : (s.trapRead p).2.reg r = s.reg r := by
    obtain ⟨m, q, d, h⟩ := trapRead_state s p
    rw [h]
    rfl
  cases h with
  | idle | out | promptByte | echo | noticeByte | halt => exact ⟨fun _ _ => rfl, fun h => absurd rfl h⟩
  | stringEnd | stringByte => exact ⟨fun r _ => trapRead_reg _ r, fun h => absurd (trapRead_reg _ 0) h⟩
  | getc hte => exact ⟨readInto0_sameRegsBut s _ _, fun _ => .inl hte⟩
  | readChar hte hk => exact ⟨readInto0_sameRegsBut s _ _, fun _ => .inr ⟨_, hte, hk⟩⟩
  | readNone hte hk => exact ⟨readInto0_sameRegsBut s _ _, fun _ => .inr ⟨_, hte, hk⟩⟩

/-- The engine ends a run only at the end of HALT (40 R87). -/
theorem EngineMove.run_cases (h : EngineMove s t) : t.run = s.run ∨
    (t.run = .halted .haltTrap ∧ t.te = .idle ∧ ∃ k, s.te = .halt k ∧ s.cfg.haltNotice.length ≤ k) := by
  have trapRead_run (p : Word) : (s.trapRead p).2.run = s.run := by
    obtain ⟨m, q, d, h⟩ := trapRead_state s p
    rw [h]
  cases h with
  | idle | out | promptByte | echo | noticeByte => exact .inl rfl
  | getc | readChar | readNone => exact .inl (conIn_run s)
  | stringEnd | stringByte => exact .inl (trapRead_run _)
  | halt hte hk => exact .inr ⟨rfl, rfl, _, hte, hk⟩

/-- A move emits no byte, or one, and GETC none (00 R13). -/
theorem EngineMove.out_cases (h : EngineMove s t) : t.out = s.out ∨ (s.te ≠ .getc ∧ ∃ b, t.out = s.out ++ [b]) := by
  have trapRead_out (p : Word) : (s.trapRead p).2.out = s.out := by
    obtain ⟨m, q, d, h⟩ := trapRead_state s p
    rw [h]
  cases h with
  | idle | halt => exact .inl rfl
  | getc | readChar | readNone => exact .inl (readInto0_out s _ _)
  | stringEnd => exact .inl (trapRead_out _)
  | stringByte b hte =>
    exact .inr ⟨fun h => by simp [h, TrapEngine.ptr] at hte, b, by simp [trapRead_out]⟩
  | out hte | promptByte hte | echo hte | noticeByte hte => exact .inr ⟨by simp [hte], _, rfl⟩

/-- A move takes input only in GETC, in IN's read, and where a string routine's read polls (00 R14). -/
theorem EngineMove.input_cases (h : EngineMove s t) : (t.answers = s.answers ∧ t.draws = s.draws) ∨
    s.te = .getc ∨ (∃ k, s.te = .inPrompt k ∧ s.cfg.inPrompt.length ≤ k) ∨
    (s.cfg.trapReadPolls = true ∧ s.te.ptr = some s.cfg.kbsrAddr) := by
  have plain_or_poll (p : Word) (hte : s.te.ptr = some p) :
      (s.trapRead p).2 = s ∨ (s.cfg.trapReadPolls = true ∧ s.te.ptr = some s.cfg.kbsrAddr) := by
    unfold State.trapRead
    split
    next polls =>
      by_cases hp : p = s.cfg.kbsrAddr
      · exact .inr ⟨polls, hp ▸ hte⟩
      · exact .inl (afterRead_of_ne s hp)
    next => exact .inl rfl
  cases h with
  | idle | out | promptByte | echo | noticeByte | halt => exact .inl ⟨rfl, rfl⟩
  | getc hte => exact .inr (.inl hte)
  | readChar hte hk => exact .inr (.inr (.inl ⟨_, hte, hk⟩))
  | readNone hte hk => exact .inr (.inr (.inl ⟨_, hte, hk⟩))
  | stringEnd hte | stringByte _ hte =>
    rcases plain_or_poll _ hte with plain | poll
    · exact .inl (by rw [plain]; exact ⟨rfl, rfl⟩)
    · exact .inr (.inr (.inr poll))

theorem EngineMove.keeps_mem_wf (h : EngineMove s t) (hm : s.mem.wf) : t.mem.wf := by
  cases h with
  | idle | out | promptByte | echo | noticeByte | halt => exact hm
  | getc | readChar | readNone => exact (conIn_mem s).symm ▸ hm
  | stringEnd | stringByte => exact trapRead_mem_wf s _ hm

/-- The engine counts no further than the end of its text (10 R29). -/
theorem EngineMove.keeps_teBounded (h : EngineMove s t) (hs : s.teBounded) : t.teBounded := by
  cases h with
  | idle => exact hs
  | stringByte _ _ he =>
    rcases ptr_eq_some he with rfl | ⟨half, rfl⟩ <;> trivial
  | promptByte hte hb | noticeByte hte hb => exact (List.getElem?_eq_some_iff.1 hb).1
  | getc | out | stringEnd | readChar | readNone | echo | halt => trivial

end

end Sys2Proof.Machine
end

section
/-! The steps of the six routines (spec/44_trap.md R134 to R140), each as one equation: a read, if there is one, then
the bytes written and the next state of the engine. -/

namespace Sys2Proof.Machine

/-! ### Bytes of a word -/

theorem lowByte_eq (v : Word) : lowByte v = v.setWidth 8 := by
  rw [lowByte, BitVec.setWidth_eq_extractLsb' (by decide)]

theorem highByte_eq (v : Word) : highByte v = (v >>> 8).setWidth 8 := by
  apply BitVec.eq_of_getLsbD_eq
  intro k hk
  simp [highByte, hk]

/-! ### What a routine's step leaves -/

/-- `s` with these bytes written to the console and the engine in `e`. -/
def State.emit (s : State) (bs : List Byte) (e : TrapEngine) : State := { s with out := s.out ++ bs, te := e }

section
variable (s : State) (bs : List Byte) (e : TrapEngine)

@[simp] theorem emit_out : (s.emit bs e).out = s.out ++ bs := rfl

theorem setTe_eq_emit : s.setTe e = s.emit [] e := by
  simp [State.emit, State.setTe]

/-- After the reads of a step, writing bytes and moving the engine changes nothing else. -/
theorem SameButPolled.emit_frame {s u : State} (h : SameButPolled s u) (bs : List Byte) (e : TrapEngine) :
    SameRegsBut [] s (u.emit bs e) ∧ (u.emit bs e).pc = s.pc ∧ (u.emit bs e).cond = s.cond ∧
      SameCellsBut [] u (u.emit bs e) ∧ (u.emit bs e).answers = u.answers ∧ (u.emit bs e).draws = u.draws ∧
      (u.emit bs e).run = s.run ∧ (u.emit bs e).started = s.started ∧ (u.emit bs e).cfg = s.cfg := by
  obtain ⟨m, q, d, rfl⟩ := h
  exact ⟨fun _ _ => rfl, rfl, rfl, fun _ _ => rfl, rfl, rfl, rfl, rfl, rfl⟩

theorem SameButPolled.out_eq {s u : State} (h : SameButPolled s u) : u.out = s.out := by
  obtain ⟨m, q, d, rfl⟩ := h
  rfl

theorem trapRead_sameButPolled (p : Word) : SameButPolled s (s.trapRead p).2 := trapRead_state s p

end

/-! ### The steps -/

section
variable {s : State}

theorem step_of_inRoutine {e : TrapEngine} (h : InRoutine e s) (he : e ≠ .idle) : step s = .next (trapStep s) := by
  obtain ⟨hen, hte⟩ := h
  exact step_of_routine s hen (hte.trans_ne he)

theorem step_getc (h : InRoutine .getc s) : step s = .next (s.readInto0 (charWord s.cfg s.conIn.1) .idle) := by
  rw [step_of_inRoutine h nofun, trapStep, h.2]
  rfl

theorem step_out (h : InRoutine .out s) : step s = .next (s.emit [lowByte (s.reg 0)] .idle) := by
  rw [step_of_inRoutine h nofun, trapStep, h.2]
  rfl

theorem step_puts_of_zero {p : Word} (h : InRoutine (.puts p) s) (hv : (s.trapRead p).1 = 0) :
    step s = .next ((s.trapRead p).2.emit [] .idle) := by
  rw [step_of_inRoutine h nofun, trapStep, h.2]
  simp only [trapPuts, hv, if_true, leaveRoutine_eq, setTe_eq_emit]

theorem step_puts_of_ne_zero {p : Word} (h : InRoutine (.puts p) s) (hv : (s.trapRead p).1 ≠ 0) :
    step s = .next ((s.trapRead p).2.emit [lowByte (s.trapRead p).1] (.puts (p + 1))) := by
  rw [step_of_inRoutine h nofun, trapStep, h.2]
  simp only [trapPuts, hv, if_false]
  rfl

theorem step_putsp_of_zero {p : Word} {half : Half} (h : InRoutine (.putsp p half) s)
    (hv : halfByte half (s.trapRead p).1 = 0) : step s = .next ((s.trapRead p).2.emit [] .idle) := by
  rw [step_of_inRoutine h nofun, trapStep, h.2]
  simp only [trapPutsp, hv, if_true, leaveRoutine_eq, setTe_eq_emit]

theorem step_putsp_of_ne_zero {p : Word} {half : Half} (h : InRoutine (.putsp p half) s)
    (hv : halfByte half (s.trapRead p).1 ≠ 0) :
    step s = .next ((s.trapRead p).2.emit [halfByte half (s.trapRead p).1] (nextHalf p half)) := by
  rw [step_of_inRoutine h nofun, trapStep, h.2]
  simp only [trapPutsp, hv, if_false]
  rfl

theorem step_in_prompt {k : Nat} {b : Byte} (h : InRoutine (.inPrompt k) s) (hb : s.cfg.inPrompt[k]? = some b) :
    step s = .next (s.emit [b] (.inPrompt (k + 1))) := by
  rw [step_of_inRoutine h nofun, trapStep, h.2]
  simp only [trapInPrompt, hb]
  rfl

theorem step_in_char {k : Nat} {c : Byte} (h : InRoutine (.inPrompt k) s) (hk : s.cfg.inPrompt.length ≤ k)
    (hc : s.conIn.1 = some c) : step s = .next (s.readInto0 (zext8 c) (.inEcho c)) := by
  rw [step_of_inRoutine h nofun, trapStep, h.2]
  simp only [trapInPrompt, List.getElem?_eq_none hk, trapInRead, hc]
  rfl

theorem step_in_none {k : Nat} (h : InRoutine (.inPrompt k) s) (hk : s.cfg.inPrompt.length ≤ k)
    (hc : s.conIn.1 = none) : step s = .next (s.readInto0 s.cfg.noChar .idle) := by
  rw [step_of_inRoutine h nofun, trapStep, h.2]
  simp only [trapInPrompt, List.getElem?_eq_none hk, trapInRead, hc]
  rfl

theorem step_in_echo {c : Byte} (h : InRoutine (.inEcho c) s) : step s = .next (s.emit [c] .idle) := by
  rw [step_of_inRoutine h nofun, trapStep, h.2]
  rfl

theorem step_halt_notice {k : Nat} {b : Byte} (h : InRoutine (.halt k) s) (hb : s.cfg.haltNotice[k]? = some b) :
    step s = .next (s.emit [b] (.halt (k + 1))) := by
  rw [step_of_inRoutine h nofun, trapStep, h.2]
  simp only [trapHalt, hb]
  rfl

theorem step_halt_end {k : Nat} (h : InRoutine (.halt k) s) (hk : s.cfg.haltNotice.length ≤ k) :
    step s = .next ((s.emit [] .idle).setRun (.halted .haltTrap)) := by
  rw [step_of_inRoutine h nofun, trapStep, h.2]
  simp only [trapHalt, List.getElem?_eq_none hk, leaveRoutine_eq, setTe_eq_emit]

end

/-! ### The statements -/

/-- Settles O33: the step as one equation; R0 takes the character or NO_CHAR. -/
theorem getcReadsOneCharacter : Obligations.GetcReadsOneCharacter := by
  intro s h
  obtain ⟨hpc, hcond, hcells, hrun, hstart, hcfg⟩ := readInto0_frame s .idle (charWord s.cfg s.conIn.1)
  refine ⟨_, step_getc h, fun c hc => ?_, fun hc => ?_, rfl, readInto0_sameRegsBut s _ _, hpc, hcond, hcells,
    readInto0_sameConsole s _ _, readInto0_out s _ _, hrun, hstart, hcfg⟩
  · rw [readInto0_reg0, hc, charWord, zext8]
  · rw [readInto0_reg0, hc, charWord]

/-- Settles O34: the step as one equation. -/
theorem outWritesTheLowByte : Obligations.OutWritesTheLowByte := by
  intro s h
  exact ⟨_, step_out h, by rw [emit_out, lowByte_eq], rfl, (sameButPolled_refl s).emit_frame _ _⟩

/-- Settles O35: by whether the cell read is zero. -/
theorem putsStep : Obligations.PutsStep := by
  intro s p h rd
  have hrd : rd = s.trapRead p := rfl
  clear_value rd
  subst hrd
  have hread := trapRead_sameButPolled s p
  by_cases hv : (s.trapRead p).1 = 0
  · refine ⟨_, step_puts_of_zero h hv, fun _ => ⟨rfl, ?_⟩, fun hne => absurd hv hne, hread.emit_frame _ _⟩
    rw [emit_out, hread.out_eq, List.append_nil]
  · refine ⟨_, step_puts_of_ne_zero h hv, fun hz => absurd hz hv, fun _ => ⟨rfl, ?_⟩, hread.emit_frame _ _⟩
    rw [emit_out, hread.out_eq, lowByte_eq]

/-- Settles O36: by whether the byte of the half is zero. -/
theorem putspStep : Obligations.PutspStep := by
  intro s p half h rd b
  have hrd : rd = s.trapRead p := rfl
  have hb : b = halfByte half rd.1 := by
    cases half
    · exact (lowByte_eq rd.1).symm
    · exact (highByte_eq rd.1).symm
  clear_value b rd
  subst hrd hb
  have hread := trapRead_sameButPolled s p
  by_cases hv : halfByte half (s.trapRead p).1 = 0
  · refine ⟨_, step_putsp_of_zero h hv, fun _ => ⟨rfl, ?_⟩, fun hne => absurd hv hne, hread.emit_frame _ _⟩
    rw [emit_out, hread.out_eq, List.append_nil]
  · refine ⟨_, step_putsp_of_ne_zero h hv, fun hz => absurd hz hv, fun _ => ⟨?_, ?_⟩, hread.emit_frame _ _⟩
    · rw [emit_out, hread.out_eq]
    · cases half <;> rfl

/-- Settles O37: by whether the prompt is written, and then by the host's answer; the echo is one byte. -/
theorem inPromptsReadsAndEchoes : Obligations.InPromptsReadsAndEchoes := by
  refine ⟨fun s k h => ?prompt, fun s c h => ?echo⟩
  case echo => exact ⟨_, step_in_echo h, rfl, rfl, (sameButPolled_refl s).emit_frame _ _⟩
  case prompt =>
    cases hb : s.cfg.inPrompt[k]? with
    | some b =>
      have short : k < s.cfg.inPrompt.length := (List.getElem?_eq_some_iff.1 hb).1
      obtain ⟨hregs, hpc, hcond, hcells, hanswers, hdraws, hctl⟩ :=
        (sameButPolled_refl s).emit_frame [b] (.inPrompt (k + 1))
      refine ⟨_, step_in_prompt h hb, fun b' hb' => ?_, fun hk => absurd short (by omega), hpc, hcond, hcells, hctl⟩
      obtain rfl := Option.some.inj hb'
      exact ⟨rfl, rfl, hregs, hanswers, hdraws⟩
    | none =>
      have written := List.getElem?_eq_none_iff.1 hb
      cases hc : s.conIn.1 with
      | some c =>
        refine ⟨_, step_in_char h written hc, nofun, fun _ => ⟨readInto0_out s _ _, readInto0_sameRegsBut s _ _,
          readInto0_sameConsole s _ _, fun c' hc' => ?_, nofun⟩, readInto0_frame s _ _⟩
        obtain rfl := Option.some.inj hc'
        exact ⟨readInto0_reg0 s _ _, rfl⟩
      | none =>
        exact ⟨_, step_in_none h written hc, nofun, fun _ => ⟨readInto0_out s _ _, readInto0_sameRegsBut s _ _,
          readInto0_sameConsole s _ _, nofun, fun _ => ⟨readInto0_reg0 s _ _, rfl⟩⟩, readInto0_frame s _ _⟩

end Sys2Proof.Machine
end

section
/-! The invariant (spec/10_state.md R23, R31, spec/40_execution_cycle.md R86, spec/60_exceptions.md R168): reset meets
it, and every core step and every act of the host keeps it. -/

namespace Sys2Proof.Machine

/-- Settles O57: by evaluation of the reset state. -/
theorem resetMeetsTheInvariant : Obligations.ResetMeetsTheInvariant :=
  ⟨default_wf, reset_mem_wf, by decide, trivial, by decide, trivial, by decide⟩

section
variable {s t : State}

/-! ### The parts of the invariant -/

theorem haltPrecise_of_running (h : s.run = .running) : s.haltPrecise := by
  simp only [State.haltPrecise, h]

theorem teBounded_of_idle (h : s.te = .idle) : s.teBounded := by
  simp only [State.teBounded, h]

theorem flagsOf_legal (c : Config) (v : Word) : flagsOf c v ∈ [0b000#3, 0b001#3, 0b010#3, 0b100#3] := by
  have one_flag : ∀ k : Fin 3, flagBit k ∈ [0b000#3, 0b001#3, 0b010#3, 0b100#3] := by decide
  rcases flagsOf_cases c v with h | h | h <;> rw [h] <;> exact one_flag _

theorem condLegal_of_eq (h : t.cond = s.cond) (hs : s.condLegal) : t.condLegal := by
  rwa [State.condLegal, h]

theorem exec_keeps_condLegal {i : Instr} (h : exec i s = .next t) (hs : s.condLegal) : t.condLegal := by
  cases hd : destOf i with
  | some dr =>
    rw [State.condLegal, exec_cond_of_destOf_some hd h]
    exact flagsOf_legal _ _
  | none => exact condLegal_of_eq (exec_cond_of_destOf_none hd h) hs

theorem enterRoutine_teBounded (r : Routine) : (s.enterRoutine r).teBounded := by
  cases r
  case inChar | halt => exact Nat.zero_le _
  all_goals trivial

/-- An instruction of a running program leaves the engine idle or a routine entered, and halts precisely. -/
theorem exec_keeps_control {i : Instr} (hrun : s.run = .running) (hte : s.te = .idle) (h : exec i s = .next t) :
    t.teBounded ∧ t.teReturns ∧ t.haltPrecise := by
  rcases exec_control h with ⟨hr, he⟩ | ⟨r, rfl⟩ | ⟨_, rfl⟩ | ⟨_, rfl⟩ | ⟨v, _, unlisted, hfault, rfl⟩
  · exact ⟨teBounded_of_idle (he.trans hte), fun busy => absurd (he.trans hte) busy,
      haltPrecise_of_running (hr.trans hrun)⟩
  · exact ⟨enterRoutine_teBounded r, fun _ => enterRoutine_reg7 s r, haltPrecise_of_running hrun⟩
  · exact ⟨teBounded_of_idle hte, fun busy => absurd hte busy, hte, (BitVec.sub_add_cancel _ _).symm, .inl rfl⟩
  · exact ⟨teBounded_of_idle hte, fun busy => absurd hte busy, hte, (BitVec.sub_add_cancel _ _).symm, .inr rfl⟩
  · exact ⟨teBounded_of_idle hte, fun busy => absurd hte busy, hte, (BitVec.sub_add_cancel _ _).symm,
      saveReturn_reg7 s, hfault, unlisted⟩

/-! ### Core steps -/

theorem exec_keeps_inv {i : Instr} (hs : Inv s) (hrun : s.run = .running) (hte : s.te = .idle)
    (hstart : s.started = true) (h : exec i s = .next t) : Inv t := by
  obtain ⟨hwf, hmem, hcond, -⟩ := hs
  obtain ⟨hcfg, hstarted⟩ := exec_cfg_started h
  obtain ⟨hbounded, hreturns, hprecise⟩ := exec_keeps_control hrun hte h
  exact ⟨hcfg ▸ hwf, exec_mem_wf h hmem, exec_keeps_condLegal h hcond, hbounded, hreturns, hprecise,
    fun hno => by simp [hstarted, hstart] at hno⟩

/-- The fetch of an instruction finds no routine in progress, so moving the pc breaks nothing. -/
theorem fetch_keeps_inv (hs : Inv s) (hat : AtInstruction s) : Inv s.fetch.2 := by
  obtain ⟨hwf, hmem, hcond, -, -, -, -⟩ := hs
  obtain ⟨hen, hte⟩ := hat
  obtain ⟨hstart, hrun⟩ := (enabled_iff s).1 hen
  have hte' : s.fetch.2.te = .idle := (afterRead_te s s.pc).trans hte
  have hrun' : s.fetch.2.run = .running := (afterRead_run s s.pc).trans hrun
  have hstart' : s.fetch.2.started = true := (afterRead_started s s.pc).trans hstart
  exact ⟨(afterRead_cfg s s.pc).symm ▸ hwf, afterRead_mem_wf s s.pc hmem, condLegal_of_eq (fetch_cond s) hcond,
    teBounded_of_idle hte', fun busy => absurd hte' busy, haltPrecise_of_running hrun',
    fun hno => by simp [hstart'] at hno⟩

/-- The parameters, the pc and the start are not the engine's to write (44 R130; log 20). -/
theorem trapStep_cfg_pc_started (s : State) :
    (trapStep s).cfg = s.cfg ∧ (trapStep s).pc = s.pc ∧ (trapStep s).started = s.started := by
  obtain ⟨x, m, q, d, r, e, o, h⟩ := trapStep_frame s
  rw [h]
  exact ⟨rfl, rfl, rfl⟩

theorem trapStep_keeps_inv (hs : Inv s) (hen : s.enabled = true) (hte : s.te ≠ .idle) : Inv (trapStep s) := by
  obtain ⟨hwf, hmem, hcond, hbounded, hreturns, -, -⟩ := hs
  obtain ⟨hstart, hrun⟩ := (enabled_iff s).1 hen
  obtain ⟨hcfg, hpc, hstarted⟩ := trapStep_cfg_pc_started s
  have move := trapStep_move s
  have saved : (trapStep s).reg 7 = (trapStep s).pc := by
    rw [move.sameRegs.1 7 (by decide), hpc]
    exact hreturns hte
  have precise : (trapStep s).haltPrecise := by
    rcases move.run_cases with hr | ⟨hr, hidle, -⟩
    · exact haltPrecise_of_running (hr.trans hrun)
    · simp only [State.haltPrecise, hr]
      exact ⟨hidle, saved⟩
  exact ⟨hcfg ▸ hwf, move.keeps_mem_wf hmem, condLegal_of_eq (trapStep_cond s) hcond, move.keeps_teBounded hbounded,
    fun _ => saved, precise, fun hno => by simp [hstarted, hstart] at hno⟩

/-- Under admissible parameters a step does nothing, or is an engine step, or runs an instruction: no word is without
one. -/
theorem step_cases_of_wf (hwf : s.cfg.wf) (h : step s = .next t) :
    (s.enabled = false ∧ t = s) ∨ (s.enabled = true ∧ s.te ≠ .idle ∧ t = trapStep s) ∨
      (AtInstruction s ∧ ∃ i, decode s.cfg s.fetch.1 = .ok i ∧ exec i s.fetch.2 = .next t) := by
  rcases step_cases s h with stay | engine | instruction | ⟨_, op, undecodable, _⟩
  · exact .inl stay
  · exact .inr (.inl engine)
  · exact .inr (.inr instruction)
  · obtain ⟨o, _, hd⟩ := decode_total hwf s.fetch.1
    simp [undecodable] at hd

theorem step_keeps_inv (hs : Inv s) (h : step s = .next t) : Inv t := by
  rcases step_cases_of_wf hs.1 h with ⟨_, rfl⟩ | ⟨hen, hte, rfl⟩ | ⟨hat, i, _, hexec⟩
  · exact hs
  · exact trapStep_keeps_inv hs hen hte
  · obtain ⟨hstart, hrun⟩ := (enabled_iff s).1 hat.1
    exact exec_keeps_inv (fetch_keeps_inv hs hat) ((afterRead_run s s.pc).trans hrun)
      ((afterRead_te s s.pc).trans hat.2) ((afterRead_started s s.pc).trans hstart) hexec

theorem step_keeps_cfg (h : step s = .next t) : t.cfg = s.cfg := by
  rcases step_cases s h with ⟨_, rfl⟩ | ⟨_, _, rfl⟩ | ⟨_, i, _, hexec⟩ | ⟨_, op, _, rfl⟩
  · rfl
  · exact (trapStep_cfg_pc_started s).1
  · exact (exec_cfg_started hexec).1.trans (afterRead_cfg s s.pc)
  · exact afterRead_cfg s s.pc

/-! ### Acts of the host -/

/-- A load comes before the start, so no routine is in progress and the pc it sets is no return address. -/
theorem loadImage_keeps_inv {f : ImageFile} (hs : Inv s) (h : s.loadImage f = .next t) : Inv t := by
  obtain ⟨hwf, hmem, hcond, hbounded, -, -, hfresh⟩ := hs
  obtain ⟨hstart, hi, lo, bs, ws, _, _, rfl⟩ := loadImage_next h
  obtain ⟨_, _, hrun, hte, _⟩ := hfresh hstart
  exact ⟨hwf, storeWords_wf ws _ _ hmem, hcond, hbounded, fun busy => absurd hte busy, haltPrecise_of_running hrun,
    hfresh⟩

theorem start_keeps_inv (hs : Inv s) (h : s.start = .next t) : Inv t := by
  obtain ⟨hwf, hmem, hcond, hbounded, hreturns, hprecise, -⟩ := hs
  obtain ⟨_, rfl⟩ := start_next h
  exact ⟨hwf, hmem, hcond, hbounded, hreturns, hprecise, nofun⟩

theorem abort_keeps_inv (hs : Inv s) (h : s.abort = .next t) : Inv t := by
  obtain ⟨hwf, hmem, hcond, hbounded, hreturns, -, -⟩ := hs
  obtain ⟨hen, rfl⟩ := abort_next h
  have hstart : s.started = true := ((enabled_iff s).1 hen).1
  exact ⟨hwf, hmem, hcond, hbounded, hreturns, trivial, fun hno => by simp [hstart] at hno⟩

theorem act_keeps_inv {e : Event} (hs : Inv s) (h : act e s = .next t) : Inv t := by
  cases e with
  | core => exact step_keeps_inv hs h
  | load f => exact loadImage_keeps_inv hs h
  | start => exact start_keeps_inv hs h
  | abort => exact abort_keeps_inv hs h
  | answer a => cases h; exact hs

/-- No event writes the parameters (log 20). -/
theorem act_keeps_cfg {e : Event} (h : act e s = .next t) : t.cfg = s.cfg := by
  cases e with
  | core => exact step_keeps_cfg h
  | load f =>
    obtain ⟨_, hi, lo, bs, ws, _, _, rfl⟩ := loadImage_next h
    rfl
  | start =>
    obtain ⟨_, rfl⟩ := start_next h
    rfl
  | abort =>
    obtain ⟨_, rfl⟩ := abort_next h
    rfl
  | answer a => cases h; rfl

end

/-! ### The statements -/

/-- Settles O58: by the three things a step can be, an instruction being a fetch and then its meaning. -/
theorem stepKeepsTheInvariant : Obligations.StepKeepsTheInvariant :=
  fun _ _ hs h => step_keeps_inv hs h

/-- Settles O59: by induction on the events, each of which keeps both. -/
theorem everyRunKeepsTheInvariant : Obligations.EveryRunKeepsTheInvariant := by
  intro es
  induction es with
  | nil =>
    intro s t hs h
    cases h
    exact ⟨hs, rfl⟩
  | cons e es ih =>
    intro s t hs h
    obtain ⟨u, hact, hrest⟩ := runEvents_cons h
    obtain ⟨hinv, hcfg⟩ := ih u t (act_keeps_inv hs hact) hrest
    exact ⟨hinv, hcfg.trans (act_keeps_cfg hact)⟩

end Sys2Proof.Machine
end

section
/-! Whole routines (spec/44_trap.md R136 to R139, R143): a routine's state after `k` rounds in closed form, and the run
of core steps that leads there. -/

namespace Sys2Proof.Machine

/-! ### Runs of core steps -/

theorem steps_one {s t : State} (h : step s = .next t) : steps 1 s = .next t :=
  steps_succ 0 h

/-- A run in two parts. -/
theorem steps_add {m : Nat} (n : Nat) : ∀ {s t : State}, steps m s = .next t → steps (m + n) s = steps n t := by
  induction m with
  | zero =>
    intro s t h
    cases h
    rw [Nat.zero_add]
  | succ m ih =>
    intro s t h
    obtain ⟨u, hstep, hrest⟩ := runEvents_cons h
    rw [Nat.succ_add_eq_add_succ, Nat.add_succ, steps_succ _ hstep, ih hrest]

/-- `n` rounds of `c` steps each, through the states of a sequence. -/
theorem steps_rounds {u : Nat → State} (c n : Nat) (round : ∀ k < n, steps c (u k) = .next (u (k + 1))) :
    steps (c * n) (u 0) = .next (u n) := by
  induction n with
  | zero => rfl
  | succ n ih =>
    rw [Nat.mul_succ, steps_add c (ih fun k hk => round k (by omega))]
    exact round n (Nat.lt_succ_self n)

/-- `n` steps through the states of a sequence. -/
theorem steps_sequence {u : Nat → State} (n : Nat) (next : ∀ k < n, step (u k) = .next (u (k + 1))) :
    steps n (u 0) = .next (u n) := by
  simpa using steps_rounds 1 n fun k hk => steps_one (next k hk)

/-! ### Bytes written one after another -/

section
variable (s : State)

@[simp] theorem emit_emit (bs bs' : List Byte) (e e' : TrapEngine) :
    (s.emit bs e).emit bs' e' = s.emit (bs ++ bs') e' := by
  simp [State.emit]

/-- Nothing written, and the engine where it was. -/
theorem emit_nil {s : State} {e : TrapEngine} (h : s.te = e) : s.emit [] e = s := by
  subst h
  simp [State.emit]

theorem inRoutine_emit {s : State} {e₀ e : TrapEngine} (h : InRoutine e₀ s) (bs : List Byte) :
    InRoutine e (s.emit bs e) :=
  ⟨h.1, rfl⟩

/-- The next address of a string read from `p` on. -/
theorem add_ofNat_succ (p : Word) (k : Nat) : p + BitVec.ofNat 16 k + 1 = p + BitVec.ofNat 16 (k + 1) := by
  rw [BitVec.ofNat_add, BitVec.add_assoc]
  rfl

/-! ### HALT and IN: a text of the parameters -/

/-- A routine with the engine states `engine 0`, `engine 1`, … after `k` bytes of the text it writes. -/
def State.textAt (text : List Byte) (engine : Nat → TrapEngine) (k : Nat) : State :=
  s.emit (text.take k) (engine k)

/-- A routine that writes its text byte by byte does so from its start on. -/
theorem steps_text {s : State} {text : List Byte} {engine : Nat → TrapEngine} (h : InRoutine (engine 0) s)
    (write : ∀ (u : State) (k : Nat) (b : Byte), InRoutine (engine k) u → u.cfg = s.cfg → text[k]? = some b →
      step u = .next (u.emit [b] (engine (k + 1))))
    {k : Nat} (hk : k ≤ text.length) : steps k s = .next (s.textAt text engine k) := by
  have start : s.textAt text engine 0 = s := emit_nil h.2
  have next : ∀ j < k, step (s.textAt text engine j) = .next (s.textAt text engine (j + 1)) := by
    intro j hj
    rw [write (s.textAt text engine j) j text[j] (inRoutine_emit h _) rfl (List.getElem?_eq_getElem _), State.textAt,
      emit_emit, List.take_append_getElem, State.textAt]
  simpa only [start] using steps_sequence k next

theorem steps_notice {s : State} (h : InRoutine (.halt 0) s) {k : Nat} (hk : k ≤ s.cfg.haltNotice.length) :
    steps k s = .next (s.emit (s.cfg.haltNotice.take k) (.halt k)) :=
  steps_text h (fun _ _ _ hin hcfg hb => step_halt_notice hin (hcfg ▸ hb)) hk

theorem steps_prompt {s : State} (h : InRoutine (.inPrompt 0) s) :
    steps s.cfg.inPrompt.length s = .next (s.emit s.cfg.inPrompt (.inPrompt s.cfg.inPrompt.length)) := by
  rw [steps_text h (fun _ _ _ hin hcfg hb => step_in_prompt hin (hcfg ▸ hb)) (Nat.le_refl s.cfg.inPrompt.length),
    State.textAt, List.take_length]

/-- HALT writes its notice and halts. -/
theorem steps_halt {s : State} (h : InRoutine (.halt 0) s) :
    steps (s.cfg.haltNotice.length + 1) s =
      .next ((s.emit s.cfg.haltNotice .idle).setRun (.halted .haltTrap)) := by
  have written := steps_notice h (Nat.le_refl _)
  rw [List.take_length] at written
  rw [steps_add 1 written, steps_one (step_halt_end (inRoutine_emit h _) (Nat.le_refl _)), emit_emit, List.append_nil]

/-- `s` at the end of IN, where the host's answer was `a` and `rest` are left. -/
def State.answered (s : State) (a : Option Byte) (rest : List (Option Byte)) : State :=
  ({ s with answers := rest }.setReg 0 (charWord s.cfg a)).emit (s.cfg.inPrompt ++ a.toList) .idle

/-- IN reads and echoes a character in two steps after its prompt. -/
theorem steps_in_char {s : State} (h : InRoutine (.inPrompt 0) s) {c : Byte} {rest : List (Option Byte)}
    (ha : s.answers = some c :: rest) : steps (s.cfg.inPrompt.length + 2) s = .next (s.answered (some c) rest) := by
  have asked := conIn_cons (s.emit s.cfg.inPrompt (.inPrompt s.cfg.inPrompt.length)) ha
  have read := step_in_char (inRoutine_emit h s.cfg.inPrompt) (Nat.le_refl _) (by rw [asked])
  rw [State.readInto0, asked] at read
  rw [steps_add 2 (steps_prompt h), steps_succ 1 read]
  refine (steps_one (step_in_echo (c := c) ?echoing)).trans ?_
  case echoing => exact ⟨h.1, rfl⟩
  simp [State.answered, State.emit, State.setReg, State.setTe, charWord]

/-- IN ends with the read where the host has no character. -/
theorem steps_in_none {s : State} (h : InRoutine (.inPrompt 0) s) {rest : List (Option Byte)}
    (ha : s.answers = none :: rest) : steps (s.cfg.inPrompt.length + 1) s = .next (s.answered none rest) := by
  have asked := conIn_cons (s.emit s.cfg.inPrompt (.inPrompt s.cfg.inPrompt.length)) ha
  have read := step_in_none (inRoutine_emit h s.cfg.inPrompt) (Nat.le_refl _) (by rw [asked])
  rw [State.readInto0, asked] at read
  rw [steps_add 1 (steps_prompt h), steps_one read]
  simp [State.answered, State.emit, State.setReg, State.setTe, charWord]

/-! ### PUTS and PUTSP with plain reads -/

variable (p : Word)

/-- PUTS after `k` cells of the string at `p`. -/
def State.putsAt (k : Nat) : State :=
  s.emit ((List.range k).map fun j => (s.cell (p + BitVec.ofNat 16 j)).setWidth 8) (.puts (p + BitVec.ofNat 16 k))

/-- PUTSP after `k` whole cells of the string at `p`. -/
def State.putspAt (k : Nat) : State :=
  s.emit ((List.range k).flatMap fun j =>
      [(s.cell (p + BitVec.ofNat 16 j)).setWidth 8, (s.cell (p + BitVec.ofNat 16 j) >>> 8).setWidth 8])
    (.putsp (p + BitVec.ofNat 16 k) .low)

end

section
variable {s : State} {p : Word}

theorem step_puts_plain_of_zero (h : InRoutine (.puts p) s) (plain : s.cfg.trapReadPolls = false)
    (hv : s.cell p = 0) : step s = .next (s.emit [] .idle) := by
  have read := trapRead_plain s plain p
  simpa only [read] using step_puts_of_zero h (by rw [read]; exact hv)

theorem step_puts_plain_of_ne_zero (h : InRoutine (.puts p) s) (plain : s.cfg.trapReadPolls = false)
    (hv : s.cell p ≠ 0) : step s = .next (s.emit [(s.cell p).setWidth 8] (.puts (p + 1))) := by
  have read := trapRead_plain s plain p
  simpa only [read, lowByte_eq] using step_puts_of_ne_zero h (by rw [read]; exact hv)

theorem step_putsp_plain_of_zero {half : Half} (h : InRoutine (.putsp p half) s) (plain : s.cfg.trapReadPolls = false)
    (hv : halfByte half (s.cell p) = 0) : step s = .next (s.emit [] .idle) := by
  have read := trapRead_plain s plain p
  simpa only [read] using step_putsp_of_zero h (by rw [read]; exact hv)

theorem step_putsp_plain_of_ne_zero {half : Half} (h : InRoutine (.putsp p half) s)
    (plain : s.cfg.trapReadPolls = false) (hv : halfByte half (s.cell p) ≠ 0) :
    step s = .next (s.emit [halfByte half (s.cell p)] (nextHalf p half)) := by
  have read := trapRead_plain s plain p
  simpa only [read] using step_putsp_of_ne_zero h (by rw [read]; exact hv)

/-- PUTSP writes both bytes of a cell in two steps. -/
theorem steps_putsp_cell (h : InRoutine (.putsp p .low) s) (plain : s.cfg.trapReadPolls = false)
    (low : (s.cell p).setWidth 8 ≠ 0#8) (high : (s.cell p >>> 8).setWidth 8 ≠ 0#8) :
    steps 2 s = .next (s.emit [(s.cell p).setWidth 8, (s.cell p >>> 8).setWidth 8] (.putsp (p + 1) .low)) := by
  rw [← lowByte_eq] at low ⊢
  rw [← highByte_eq] at high ⊢
  rw [steps_succ 1 (step_putsp_plain_of_ne_zero h plain low)]
  exact (steps_one (step_putsp_plain_of_ne_zero (p := p) (half := .high) (inRoutine_emit h _) plain high)).trans
    (congrArg Host.Outcome.next (emit_emit s _ _ _ _))

/-- PUTSP ends at a cell whose high byte alone is zero in two steps, the first of which writes the low byte. -/
theorem steps_putsp_last (h : InRoutine (.putsp p .low) s) (plain : s.cfg.trapReadPolls = false)
    (low : (s.cell p).setWidth 8 ≠ 0#8) (high : (s.cell p >>> 8).setWidth 8 = 0#8) :
    steps 2 s = .next (s.emit [(s.cell p).setWidth 8] .idle) := by
  rw [← lowByte_eq] at low ⊢
  rw [← highByte_eq] at high
  rw [steps_succ 1 (step_putsp_plain_of_ne_zero h plain low)]
  exact (steps_one (step_putsp_plain_of_zero (p := p) (half := .high) (inRoutine_emit h _) plain high)).trans
    (congrArg Host.Outcome.next (emit_emit s _ _ _ _))

theorem steps_puts (h : InRoutine (.puts p) s) (plain : s.cfg.trapReadPolls = false) {n : Nat}
    (string : ∀ k < n, s.cell (p + BitVec.ofNat 16 k) ≠ 0) : steps n s = .next (s.putsAt p n) := by
  have start : s.putsAt p 0 = s := emit_nil (h.2.trans (by simp))
  have next : ∀ k < n, step (s.putsAt p k) = .next (s.putsAt p (k + 1)) := by
    intro k hk
    have within : InRoutine (.puts (p + BitVec.ofNat 16 k)) (s.putsAt p k) := inRoutine_emit h _
    rw [step_puts_plain_of_ne_zero within plain (string k hk), State.putsAt, emit_emit, add_ofNat_succ,
      State.putsAt, List.range_succ, List.map_append]
    rfl
  simpa only [start] using steps_sequence n next

theorem steps_putsp (h : InRoutine (.putsp p .low) s) (plain : s.cfg.trapReadPolls = false) {n : Nat}
    (string : ∀ k < n, (s.cell (p + BitVec.ofNat 16 k)).setWidth 8 ≠ 0#8 ∧
      (s.cell (p + BitVec.ofNat 16 k) >>> 8).setWidth 8 ≠ 0#8) :
    steps (2 * n) s = .next (s.putspAt p n) := by
  have start : s.putspAt p 0 = s := emit_nil (h.2.trans (by simp))
  have round : ∀ k < n, steps 2 (s.putspAt p k) = .next (s.putspAt p (k + 1)) := by
    intro k hk
    have within : InRoutine (.putsp (p + BitVec.ofNat 16 k) .low) (s.putspAt p k) := inRoutine_emit h _
    rw [steps_putsp_cell within plain (string k hk).1 (string k hk).2, State.putspAt, emit_emit, add_ofNat_succ,
      State.putspAt, List.range_succ, List.flatMap_append]
    rfl
  simpa only [start] using steps_rounds 2 n round

end

/-! ### The statements -/

/-- Settles O38: the prompt, the read of the fixed answer, and the echo of a character. -/
theorem inRunsToCompletion : Obligations.InRunsToCompletion := by
  intro s a rest h ha
  have r0 : (s.answered a rest).reg 0 = charWord s.cfg a := setReg_reg_same _ 0 _
  have regs : SameRegsBut [0] s (s.answered a rest) := fun r hr => setReg_reg_ne _ _ (List.ne_of_not_mem_cons hr)
  have out : (s.answered a rest).out = s.out ++ s.cfg.inPrompt ++ a.toList := (List.append_assoc ..).symm
  cases a with
  | some c =>
    exact ⟨_, steps_in_char h ha, rfl, ⟨r0, out⟩, rfl, regs, rfl, rfl, fun _ _ => rfl, rfl⟩
  | none =>
    exact ⟨_, steps_in_none h ha, rfl, ⟨r0, out.trans (List.append_nil _)⟩, rfl, regs, rfl, rfl, fun _ _ => rfl, rfl⟩

/-- Settles O39: the notice byte by byte, then the halt. -/
theorem haltWritesTheNoticeAndHalts : Obligations.HaltWritesTheNoticeAndHalts := by
  refine ⟨fun u hen => ?started, fun s h => ⟨fun k hk => ⟨_, steps_notice h hk, rfl, ?running, rfl⟩, ?ended⟩⟩
  case started =>
    have h : InRoutine (.halt 0) (u.enterRoutine .halt) := ⟨hen, rfl⟩
    exact ⟨_, _, rfl, steps_halt h, rfl, rfl, enterRoutine_reg7 u .halt⟩
  case running => exact ((enabled_iff s).1 h.1).2
  case ended =>
    exact ⟨_, steps_halt h, rfl, rfl, rfl, fun _ _ => rfl, rfl, rfl, fun _ _ => rfl, rfl, rfl, rfl⟩

/-- Settles O40: `n` bytes, then the zero cell. -/
theorem putsWritesTheString : Obligations.PutsWritesTheString := by
  intro s p n h plain string last
  have atEnd : InRoutine (.puts (p + BitVec.ofNat 16 n)) (s.putsAt p n) := inRoutine_emit h _
  refine ⟨_, (steps_add 1 (steps_puts h plain string)).trans (steps_one (step_puts_plain_of_zero atEnd plain last)),
    rfl, ?_, fun _ _ => rfl, rfl, rfl, fun _ _ => rfl, rfl, rfl, rfl⟩
  rw [emit_out, List.append_nil]
  rfl

/-- Settles O41: `n` whole cells, then the last one by its low byte. -/
theorem putspWritesThePackedString : Obligations.PutspWritesThePackedString := by
  intro s p n h plain string last hlast whole
  have cells := steps_putsp h plain string
  have atEnd : InRoutine (.putsp (p + BitVec.ofNat 16 n) .low) (s.putspAt p n) := inRoutine_emit h _
  by_cases low : last.setWidth 8 = 0#8
  · have ends := step_putsp_plain_of_zero atEnd plain ((lowByte_eq last).trans low)
    rw [if_pos low, if_pos low]
    refine ⟨_, (steps_add 1 cells).trans (steps_one ends), rfl, ?_, fun _ _ => rfl, rfl, rfl, fun _ _ => rfl, rfl, rfl,
      rfl⟩
    rw [emit_out]
    rfl
  · have ends := steps_putsp_last atEnd plain low (hlast.resolve_left low)
    rw [if_neg low, if_neg low]
    exact ⟨_, (steps_add 2 cells).trans ends, rfl, rfl, fun _ _ => rfl, rfl, rfl, fun _ _ => rfl, rfl, rfl, rfl⟩

/-- With polling reads, a routine's read of KBSR that finds no character is of `KBSR_IDLE`. -/
theorem trapRead_kbsr_idle {s : State} (polls : s.cfg.trapReadPolls = true) (hc : s.conIn.1 = none) :
    (s.trapRead s.cfg.kbsrAddr).1 = s.cfg.kbsrIdle := by
  rw [State.trapRead, if_pos polls, memRead_fst, afterRead_kbsr, kbPoll_of_none s hc, memWrite_cell_same]

/-- Settles O42: the closed forms hold for every number of steps; a poll that finds nothing reads `KBSR_IDLE`. -/
theorem unterminatedStringNeverCompletes : Obligations.UnterminatedStringNeverCompletes := by
  refine ⟨fun s p h plain string n => ?puts, fun s p h plain string n => ?putsp, fun s polls idle hc h => ?poll⟩
  case puts =>
    exact ⟨_, steps_puts h plain fun k _ => string _, inRoutine_emit h _, by simp [State.putsAt]⟩
  case putsp =>
    refine ⟨_, steps_putsp h plain fun k _ => string _, inRoutine_emit h _, ?_⟩
    simp [State.putspAt, Nat.mul_comm]
  case poll =>
    have zero : (s.trapRead s.cfg.kbsrAddr).1 = 0 := (trapRead_kbsr_idle polls hc).trans idle
    have silent : ((s.trapRead s.cfg.kbsrAddr).2.emit [] .idle).out = s.out := by
      rw [emit_out, (trapRead_sameButPolled s _).out_eq, List.append_nil]
    rcases h with h | ⟨half, h⟩
    · exact ⟨_, step_puts_of_zero h zero, rfl, silent⟩
    · refine ⟨_, step_putsp_of_zero h ?_, rfl, silent⟩
      rw [zero]
      cases half <;> rfl

end Sys2Proof.Machine
end

section
/-! Rules over every step (spec/00_scope.md R9, R13, R14, spec/10_state.md R21, R27, spec/40_execution_cycle.md R80 to
R87): by what a step can be, from what an instruction and the engine can do. -/

namespace Sys2Proof.Machine

/-! ### Steps that take no input (00 R9) -/

/-- `s` where the host has fixed other answers and made other draws. -/
def State.withInput (s : State) (q : List (Option Byte)) (d : Nat) : State := { s with answers := q, draws := d }

section
variable {s t : State} (q : List (Option Byte)) (d : Nat)

@[simp] theorem withInput_cfg : (s.withInput q d).cfg = s.cfg := rfl
@[simp] theorem withInput_pc : (s.withInput q d).pc = s.pc := rfl
@[simp] theorem withInput_te : (s.withInput q d).te = s.te := rfl

/-- Input makes no difference to a read of an address other than KBSR. -/
theorem memRead_withInput {a : Word} (h : a ≠ s.cfg.kbsrAddr) :
    (s.withInput q d).memRead a = (s.cell a, s.withInput q d) :=
  memRead_of_ne (s.withInput q d) h

theorem loadFrom_withInput (dr : Reg) {a : Word} (h : a ≠ s.cfg.kbsrAddr) :
    (s.withInput q d).loadFrom dr a = (s.loadFrom dr a).withInput q d := by
  rw [State.loadFrom, State.loadFrom, memRead_withInput q d h, memRead_of_ne s h]
  rfl

theorem fetch_withInput (h : s.pc ≠ s.cfg.kbsrAddr) :
    (s.withInput q d).fetch = (s.fetch.1, s.fetch.2.withInput q d) := by
  rw [fetch_eq, fetch_eq, withInput_pc, afterRead_of_ne s h, afterRead_of_ne (s.withInput q d) h]
  rfl

theorem enterTrap_withInput (v : Byte) : (s.withInput q d).enterTrap v = (s.enterTrap v).withInput q d := by
  unfold State.enterTrap
  rw [withInput_cfg]
  cases trapTable s.cfg.trapvecOf v with
  | some r => rfl
  | none =>
    change State.unknownTrap (s.saveReturn.withInput q d) v = _
    unfold State.unknownTrap
    rw [withInput_cfg]
    cases s.saveReturn.cfg.unknownTrap <;> rfl

/-- An instruction that reads no KBSR does the same under other input. -/
theorem exec_withInput {i : Instr} (hk : s.cfg.kbsrAddr ∉ readAddrs i s) (h : exec i s = .next t) :
    exec i (s.withInput q d) = .next (t.withInput q d) := by
  have other : ∀ a ∈ readAddrs i s, a ≠ s.cfg.kbsrAddr := fun a ha e => hk (e ▸ ha)
  cases i
  case br nzp off =>
    cases (execBr_eq_setPc nzp off s).symm.trans h
    exact execBr_eq_setPc nzp off (s.withInput q d)
  all_goals cases h
  case ld | ldr => exact congrArg Host.Outcome.next (loadFrom_withInput q d _ (other _ (List.mem_singleton_self _)))
  case ldi dr off =>
    obtain ⟨hptr, hdata, -⟩ := List.forall_mem_cons.1 other |>.imp id List.forall_mem_cons.1
    rw [memRead_of_ne s hptr] at hdata
    simp only [exec, execLdi, withInput_pc, memRead_withInput q d hptr, memRead_of_ne s hptr,
      loadFrom_withInput q d dr hdata]
  case sti sr off =>
    have hptr : pcRelative s.pc off ≠ s.cfg.kbsrAddr := other _ (List.mem_singleton_self _)
    simp only [exec, execSti, withInput_pc, memRead_withInput q d hptr, memRead_of_ne s hptr]
    rfl
  case trap v => exact congrArg Host.Outcome.next (enterTrap_withInput q d v)
  all_goals rfl

theorem trapRead_withInput {p : Word} (h : (s.trapRead p).2.inputTaken = s.inputTaken) :
    (s.withInput q d).trapRead p = ((s.trapRead p).1, (s.trapRead p).2.withInput q d) := by
  cases polls : s.cfg.trapReadPolls with
  | false => rw [trapRead_plain s polls, trapRead_plain (s.withInput q d) polls]; rfl
  | true =>
    have read : s.trapRead p = s.memRead p := if_pos polls
    have read' : (s.withInput q d).trapRead p = (s.withInput q d).memRead p := if_pos polls
    have hp : p ≠ s.cfg.kbsrAddr := by
      intro hp
      rw [read, memRead_snd, inputTaken_afterRead, if_pos hp] at h
      omega
    rw [read, read', memRead_withInput q d hp, memRead_of_ne s hp]

/-- An engine step that takes no input does the same under other input. -/
theorem trapStep_withInput (h : (trapStep s).inputTaken = s.inputTaken) :
    trapStep (s.withInput q d) = (trapStep s).withInput q d := by
  have asks (v : Word) (e : TrapEngine) : (s.readInto0 v e).inputTaken ≠ s.inputTaken := by
    have one : (s.readInto0 v e).inputTaken = s.inputTaken + 1 := inputTaken_conIn s
    omega
  unfold trapStep at h ⊢
  rw [withInput_te]
  cases hte : s.te with
  | idle | out | inEcho c => rfl
  | getc =>
    rw [hte] at h
    exact absurd h (asks _ _)
  | puts p =>
    have read : (s.trapRead p).2.inputTaken = s.inputTaken := by
      simp only [hte, trapPuts] at h
      split at h <;> exact h
    simp only [trapPuts, trapRead_withInput q d read]
    split <;> rfl
  | putsp p half =>
    have read : (s.trapRead p).2.inputTaken = s.inputTaken := by
      simp only [hte, trapPutsp] at h
      split at h <;> exact h
    simp only [trapPutsp, trapRead_withInput q d read]
    split <;> rfl
  | inPrompt k =>
    simp only [hte, trapInPrompt] at h ⊢
    rw [withInput_cfg]
    cases hk : s.cfg.inPrompt[k]? with
    | some b => rfl
    | none =>
      simp only [hk, trapInRead] at h
      split at h <;> exact absurd h (asks _ _)
  | halt k =>
    simp only [trapHalt]
    rw [withInput_cfg]
    cases s.cfg.haltNotice[k]? <;> rfl

/-- A step of an instruction takes an answer for its fetch and for each of its reads that is from KBSR. -/
theorem inputTaken_instruction {i : Instr} (h : exec i s.fetch.2 = .next t) :
    t.inputTaken = s.inputTaken + (if s.pc = s.cfg.kbsrAddr then 1 else 0) +
      (readAddrs i s.fetch.2).count s.cfg.kbsrAddr := by
  obtain ⟨hanswers, hdraws, -⟩ := exec_console h
  have hcfg : s.fetch.2.cfg = s.cfg := afterRead_cfg s s.pc
  have hfetch : s.fetch.2.inputTaken = (s.afterRead s.pc).inputTaken := rfl
  rw [inputTaken_congr hanswers hdraws, inputTaken_afterReads, hcfg, hfetch, inputTaken_afterRead]

end

/-! ### The statements -/

/-- Settles O6: the three cases of a step, an instruction being the fetch and the meaning of what it decodes. -/
theorem stepRunsTheDecodedInstruction : Obligations.StepRunsTheDecodedInstruction := by
  refine fun s => ⟨fun hno => ?none, fun hstart hrun hte => ?engine, fun hstart hrun hte i hd => ?instruction⟩
  case none => exact step_of_disabled s (Bool.eq_false_of_not_eq_true fun hen => hno ((enabled_iff s).1 hen))
  case engine => exact step_of_routine s ((enabled_iff s).2 ⟨hstart, hrun⟩) hte
  case instruction =>
    rw [step_of_instruction s ⟨(enabled_iff s).2 ⟨hstart, hrun⟩, hte⟩, runInstruction,
      show s.fetch.1 = (s.memRead s.pc).1 from rfl, hd]
    rfl

/-- Settles O8: the engine stops the run at the end of HALT; an instruction in the three ways it can. -/
theorem onlyTheseStepsHalt : Obligations.OnlyTheseStepsHalt := by
  intro s t hwf hrun h stopped
  rcases step_cases_of_wf hwf h with ⟨_, rfl⟩ | ⟨_, _, rfl⟩ | ⟨⟨_, hte⟩, i, hd, hexec⟩
  · exact absurd hrun stopped
  · rcases (trapStep_move s).run_cases with same | ⟨hr, _, k, hk, hlen⟩
    · exact absurd (same.trans hrun) stopped
    · exact .inl ⟨hr, k, hk, hlen⟩
  · refine .inr ⟨hte, i, hd, ?_⟩
    have hcfg : s.fetch.2.cfg = s.cfg := afterRead_cfg s s.pc
    have hrun' : s.fetch.2.run = .running := (afterRead_run s s.pc).trans hrun
    have fetchAddr : s.fetch.2.pc - 1 = s.pc := BitVec.add_sub_cancel _ _
    rcases exec_control hexec with ⟨same, _⟩ | ⟨r, rfl⟩ | ⟨hi, rfl⟩ | ⟨hi, rfl⟩ | ⟨v, hi, _, hfault, rfl⟩
    · exact absurd (same.trans hrun') stopped
    · exact absurd hrun' stopped
    · exact .inl ⟨hi, by rw [raiseBadOpcode_eq, setRun_run, fetchAddr, hcfg]⟩
    · exact .inr (.inl ⟨hi, by rw [raiseBadOpcode_eq, setRun_run, fetchAddr, hcfg]⟩)
    · exact .inr (.inr ⟨v, hi, hcfg ▸ hfault, by rw [setRun_run, fetchAddr]⟩)

/-- Settles O46: writes by the table for an instruction and R0 for the engine; an unread register is overwritten or
handed on. -/
theorem registerReadsAndWritesAreTheTables : Obligations.RegisterReadsAndWritesAreTheTables := by
  refine ⟨⟨fun i s t h => exec_sameRegsBut h, fun s => (trapStep_move s).sameRegs⟩, fun i s t r v hr h => ?_⟩
  by_cases hw : r ∈ writtenRegs i
  · rw [if_pos hw, exec_setReg_of_written s v hw hr, h]
  · rw [if_neg hw, exec_setReg_of_not_written v hw hr h]

/-- Settles O47: instructions and fetches emit nothing, an engine step at most one byte. -/
theorem onlyRoutinesEmitBytes : Obligations.OnlyRoutinesEmitBytes := by
  intro s t h
  rcases step_cases s h with ⟨_, rfl⟩ | ⟨hen, hte, rfl⟩ | ⟨_, i, _, hexec⟩ | ⟨_, op, _, rfl⟩
  · exact .inl rfl
  · rcases (trapStep_move s).out_cases with silent | ⟨hgetc, byte⟩
    · exact .inl silent
    · exact .inr ⟨hen, hte, hgetc, byte⟩
  · obtain ⟨_, _, hout⟩ := exec_console hexec
    exact .inl (hout.trans (afterRead_out s s.pc))
  · exact .inl (afterRead_out s s.pc)

/-- Settles O48: the engine's input moves, and for an instruction a fetch or a read from KBSR. -/
theorem onlyPollsAndGetcAndInTakeInput : Obligations.OnlyPollsAndGetcAndInTakeInput := by
  intro s t h took
  have untouched : ¬(t.answers = s.answers ∧ t.draws = s.draws) := fun ⟨ha, hd⟩ => took.elim (· ha) (· hd)
  have plainFetch (hpc : s.pc ≠ s.cfg.kbsrAddr) : s.fetch.2 = s.setPc (s.pc + 1) := by
    rw [fetch_eq, afterRead_of_ne s hpc]
  rcases step_cases s h with ⟨_, rfl⟩ | ⟨_, _, rfl⟩ | ⟨⟨_, hte⟩, i, hd, hexec⟩ | ⟨⟨_, hte⟩, op, _, rfl⟩
  · exact absurd ⟨rfl, rfl⟩ untouched
  · rcases (trapStep_move s).input_cases with none | getc | reads | ⟨polls, hptr⟩
    · exact absurd none untouched
    · exact .inl getc
    · exact .inr (.inl reads)
    · exact .inr (.inr (.inl ⟨polls, ptr_eq_some hptr⟩))
  · refine .inr (.inr (.inr ⟨hte, ?_⟩))
    by_cases hpc : s.pc = s.cfg.kbsrAddr
    · exact .inl hpc
    · refine .inr ⟨i, hd, ?_⟩
      by_contra hk
      obtain ⟨hanswers, hdraws, -⟩ := exec_console hexec
      have hk' : s.fetch.2.cfg.kbsrAddr ∉ readAddrs i s.fetch.2 := (afterRead_cfg s s.pc).symm ▸ hk
      rw [afterReads_of_not_mem _ hk', plainFetch hpc] at hanswers hdraws
      exact untouched ⟨hanswers, hdraws⟩
  · by_cases hpc : s.pc = s.cfg.kbsrAddr
    · exact .inr (.inr (.inr ⟨hte, .inl hpc⟩))
    · rw [plainFetch hpc] at untouched
      exact absurd ⟨rfl, rfl⟩ untouched

/-- Settles O49: a step that takes no input makes no poll, so each of its parts does the same under other input. -/
theorem inputMattersOnlyWhereItIsTaken : Obligations.InputMattersOnlyWhereItIsTaken := by
  intro s t q d h hanswers hdraws
  change step (s.withInput q d) = .next (t.withInput q d)
  have none := inputTaken_congr hanswers hdraws
  rcases step_cases s h with ⟨hen, rfl⟩ | ⟨hen, hte, rfl⟩ | ⟨hat, i, hd, hexec⟩ | ⟨hat, op, hd, rfl⟩
  · exact step_of_disabled _ hen
  · rw [step_of_routine (s.withInput q d) hen hte, trapStep_withInput q d none]
  · rw [inputTaken_instruction hexec] at none
    have hpc : s.pc ≠ s.cfg.kbsrAddr := by
      intro hpc
      rw [if_pos hpc] at none
      omega
    have hk : s.fetch.2.cfg.kbsrAddr ∉ readAddrs i s.fetch.2 := by
      rw [if_neg hpc] at none
      have hcfg : s.fetch.2.cfg = s.cfg := afterRead_cfg s s.pc
      rw [hcfg]
      exact List.count_eq_zero.1 (by omega)
    rw [step_of_instruction (s.withInput q d) hat, runInstruction, fetch_withInput q d hpc]
    exact (congrArg (dispatch · _) hd).trans (exec_withInput q d hk hexec)
  · have hpc : s.pc ≠ s.cfg.kbsrAddr := by
      intro hpc
      have one : (s.fetch.2.raiseBadOpcode op).inputTaken = (s.afterRead s.pc).inputTaken := rfl
      rw [one, inputTaken_afterRead, if_pos hpc] at none
      omega
    rw [step_of_instruction (s.withInput q d) hat, runInstruction, fetch_withInput q d hpc]
    exact congrArg (dispatch · _) hd

end Sys2Proof.Machine
end

section
/-! The host's acts (spec/00_scope.md R10 to R15, spec/60_exceptions.md R176, R181, R183, spec/70_reset_and_hazards.md
R194 to R198): image files, loading and starting, abort, and the exit status. -/

namespace Sys2Proof.Machine

/-! ### Stopped runs -/

section
variable {s t : State}

theorem enabled_of_stopped (h : s.run ≠ .running) : s.enabled = false := by
  simp [State.enabled, h]

/-- A core that takes no step stays as it is, however often it is stepped. -/
theorem steps_of_disabled (h : s.enabled = false) (n : Nat) : steps n s = .next s := by
  induction n with
  | zero => rfl
  | succ n ih => rw [steps_succ n (step_of_disabled s h), ih]

/-- No event changes the run state of a stopped run. -/
theorem act_keeps_stopped {e : Event} (hs : s.run ≠ .running) (h : act e s = .next t) : t.run = s.run := by
  cases e with
  | core =>
    cases (step_of_disabled s (enabled_of_stopped hs)).symm.trans h
    rfl
  | load f =>
    obtain ⟨_, hi, lo, bs, ws, _, _, rfl⟩ := loadImage_next h
    rfl
  | start =>
    obtain ⟨_, rfl⟩ := start_next h
    rfl
  | abort => exact absurd ((enabled_iff s).1 (abort_next h).1).2 hs
  | answer a =>
    cases h
    rfl

/-! ### Image files (70 R194, R196) -/

/-- A file has words exactly when its length is even, and then half as many. -/
theorem wordsOfBytes_length (bs : List Byte) :
    (bs.length % 2 = 1 ∧ wordsOfBytes bs = none) ∨
      (bs.length % 2 = 0 ∧ ∃ ws, wordsOfBytes bs = some ws ∧ ws.length = bs.length / 2) := by
  induction bs using wordsOfBytes.induct with
  | case1 => exact .inr ⟨rfl, [], rfl, rfl⟩
  | case2 b => exact .inl ⟨rfl, rfl⟩
  | case3 hi lo bs ih =>
    simp only [wordsOfBytes, List.length_cons]
    rcases ih with ⟨odd, hn⟩ | ⟨even, ws, hw, hlen⟩
    · exact .inl ⟨by omega, by rw [hn]; rfl⟩
    · exact .inr ⟨by omega, (hi ++ lo) :: ws, by rw [hw]; rfl, by simp only [List.length_cons]; omega⟩

/-- The first byte of a pair stands in bits 15..8. -/
theorem toNat_pair (hi lo : Byte) : (hi ++ lo : Word).toNat = 256 * hi.toNat + lo.toNat := by
  rw [BitVec.toNat_append, ← Nat.shiftLeft_add_eq_or_of_lt lo.isLt, Nat.shiftLeft_eq, Nat.mul_comm]

theorem eq_pair_iff {hi lo : Byte} {w : Word} : w = hi ++ lo ↔ w.toNat = 256 * hi.toNat + lo.toNat := by
  rw [← toNat_pair, BitVec.toNat_inj]

end

/-- Two more bytes are one more word, in front of the others. -/
theorem wordsOfBytes_cons_cons {hi lo : Byte} {bs : List Byte} {w : Word} {ws : List Word} :
    wordsOfBytes (hi :: lo :: bs) = some (w :: ws) ↔ w = hi ++ lo ∧ wordsOfBytes bs = some ws := by
  simp only [wordsOfBytes, Option.map_eq_some_iff, List.cons.injEq]
  constructor
  · rintro ⟨ws', h, rfl, rfl⟩
    exact ⟨rfl, h⟩
  · rintro ⟨rfl, h⟩
    exact ⟨ws, h, rfl, rfl⟩

/-- `ws` are the big-endian words of `bs` (70 R194). -/
def BigEndianWords (bs : List Byte) (ws : List Word) : Prop :=
  bs.length = 2 * ws.length ∧
    ∀ k, ∀ h : k < ws.length, ∃ hi lo, bs[2 * k]? = some hi ∧ bs[2 * k + 1]? = some lo ∧
      ws[k].toNat = 256 * hi.toNat + lo.toNat

theorem bigEndianWords_cons_cons {hi lo : Byte} {bs : List Byte} {w : Word} {ws : List Word} :
    BigEndianWords (hi :: lo :: bs) (w :: ws) ↔ w = hi ++ lo ∧ BigEndianWords bs ws := by
  simp only [BigEndianWords, List.length_cons]
  constructor
  · rintro ⟨hlen, hwords⟩
    obtain ⟨hi', lo', hhi, hlo, hw⟩ := hwords 0 (by omega)
    obtain rfl := Option.some.inj hhi
    obtain rfl := Option.some.inj hlo
    exact ⟨eq_pair_iff.2 hw, by omega, fun k hk => hwords (k + 1) (by omega)⟩
  · rintro ⟨hw, hlen, hwords⟩
    refine ⟨by omega, fun k hk => ?_⟩
    cases k with
    | zero => exact ⟨hi, lo, rfl, rfl, eq_pair_iff.1 hw⟩
    | succ k => exact hwords k (by omega)

/-- The words of a file, pair by pair. -/
theorem wordsOfBytes_iff (bs : List Byte) : ∀ ws, wordsOfBytes bs = some ws ↔ BigEndianWords bs ws := by
  induction bs using wordsOfBytes.induct with
  | case1 =>
    intro ws
    cases ws with
    | nil => exact ⟨fun _ => ⟨rfl, nofun⟩, fun _ => rfl⟩
    | cons w ws => exact ⟨nofun, fun h => absurd h.1 (by simp)⟩
  | case2 b =>
    intro ws
    exact ⟨nofun, fun h => absurd h.1 (by simp only [List.length_singleton]; omega)⟩
  | case3 hi lo bs ih =>
    intro ws
    cases ws with
    | nil => exact ⟨fun h => by simp [wordsOfBytes] at h, fun h => absurd h.1 (by simp)⟩
    | cons w ws => rw [wordsOfBytes_cons_cons, bigEndianWords_cons_cons, ih]

/-- A file the loader takes for truncated (70 R196, D14). -/
def Truncated (f : ImageFile) : Prop :=
  f = none ∨ ∃ bs, f = some bs ∧ (bs.length < 2 ∨ bs.length % 2 = 1 ∨
    ∃ hi lo rest, bs = hi :: lo :: rest ∧ 65536 - (hi ++ lo : Word).toNat < rest.length / 2)

/-- Before the start, a load fails for a truncated file and succeeds for any other. -/
theorem loadImage_cases {s : State} (hst : s.started = false) (f : ImageFile) :
    (Truncated f ∧ ∃ e, s.loadImage f = .fault (.loadError e)) ∨ (¬Truncated f ∧ ∃ t, s.loadImage f = .next t) := by
  match f with
  | none => exact .inl ⟨.inl rfl, _, by simp only [State.loadImage, hst]; rfl⟩
  | some [] => exact .inl ⟨.inr ⟨_, rfl, .inl (by decide)⟩, _, by simp only [State.loadImage, hst]; rfl⟩
  | some [b] => exact .inl ⟨.inr ⟨_, rfl, .inl (Nat.lt_succ_self 1)⟩, _, by simp only [State.loadImage, hst]; rfl⟩
  | some (hi :: lo :: rest) =>
    rcases wordsOfBytes_length rest with ⟨odd, hn⟩ | ⟨even, ws, hw, hlen⟩
    · refine .inl ⟨.inr ⟨_, rfl, .inr (.inl ?_)⟩, .oddLength, ?_⟩
      · simp only [List.length_cons]
        omega
      · simp only [State.loadImage, hst, hn]
        rfl
    · by_cases fits : (hi ++ lo : Word).toNat + ws.length ≤ 65536
      · refine .inr ⟨?_, _, loadImage_of_fits hst hw fits⟩
        rintro (h | ⟨bs, hbs, hshort | hodd | ⟨hi', lo', rest', hrest, hlong⟩⟩)
        · cases h
        · cases hbs
          simp only [List.length_cons] at hshort
          omega
        · cases hbs
          simp only [List.length_cons] at hodd
          omega
        · cases hbs
          cases hrest
          omega
      · have room := (hi ++ lo : Word).isLt
        have long : ws.length > 65536 - (hi ++ lo : Word).toNat := by omega
        refine .inl ⟨.inr ⟨_, rfl, .inr (.inr ⟨hi, lo, rest, rfl, hlen ▸ long⟩)⟩, .pastEnd, ?_⟩
        simp only [State.loadImage, hst, hw, State.loadWords, if_pos long]
        rfl

/-! ### The statements -/

/-- Settles O7: a stopped core takes no step, and no act of the host starts it again. -/
theorem stoppedRunStaysStopped : Obligations.StoppedRunStaysStopped := by
  intro s hs
  refine ⟨steps_of_disabled (enabled_of_stopped hs), fun es => ?_⟩
  induction es generalizing s with
  | nil =>
    intro t h
    cases h
    rfl
  | cons e es ih =>
    intro t h
    obtain ⟨u, hact, hrest⟩ := runEvents_cons h
    have kept := act_keeps_stopped hs hact
    exact (ih u (kept ▸ hs) t hrest).trans kept

/-- Settles O53: by the length of the file, then by whether its words fit. -/
theorem loadFailsExactlyWhenTruncated : Obligations.LoadFailsExactlyWhenTruncated := by
  intro s f hst
  rcases loadImage_cases hst f with ⟨truncated, fails⟩ | ⟨whole, t, loads⟩
  · exact ⟨⟨fun _ => truncated, fun _ => fails⟩, .inl fails⟩
  · exact ⟨⟨fun ⟨e, fails⟩ => by simp [loads] at fails, fun truncated => absurd truncated whole⟩, .inr ⟨t, loads⟩⟩

/-- Settles O51: by the recursion over the pairs of the file. -/
theorem imageWordsAreBigEndian : Obligations.ImageWordsAreBigEndian :=
  wordsOfBytes_iff

/-- What loads before the start, and then the start, leave of a state: memory and the pc alone are new, and the pc is
the last image's origin. -/
theorem loads_then_start (fs : List ImageFile) : ∀ {s t : State},
    runEvents (fs.map .load ++ [.start]) s = .next t →
    ∃ m p, t = { s with mem := m, pc := p, started := true } ∧
      ((fs = [] ∧ p = s.pc) ∨ ∃ hi lo rest, fs.getLast? = some (some (hi :: lo :: rest)) ∧ p = hi ++ lo) := by
  induction fs with
  | nil =>
    intro s t h
    obtain ⟨u, hstart, hnil⟩ := runEvents_cons h
    obtain ⟨_, rfl⟩ := start_next hstart
    cases hnil
    exact ⟨s.mem, s.pc, rfl, .inl ⟨rfl, rfl⟩⟩
  | cons f fs ih =>
    intro s t h
    obtain ⟨u, hload, hrest⟩ := runEvents_cons h
    obtain ⟨_, hi, lo, bs, ws, rfl, _, rfl⟩ := loadImage_next hload
    obtain ⟨m, p, rfl, ⟨rfl, hp⟩ | ⟨hi', lo', rest, hlast, hp⟩⟩ := ih hrest
    · exact ⟨m, p, rfl, .inr ⟨hi, lo, bs, rfl, hp⟩⟩
    · exact ⟨m, p, rfl, .inr ⟨hi', lo', rest, by rw [List.getLast?_cons, hlast]; rfl, hp⟩⟩

/-- Settles O54: the loads and the start write nothing but memory, the pc and `started`. -/
theorem startAfterLoading : Obligations.StartAfterLoading := by
  intro image images s h
  obtain ⟨m, p, rfl, hlast⟩ := loads_then_start (image :: images) h
  obtain ⟨registers, -⟩ := resetValues
  exact ⟨rfl, rfl, rfl, registers, rfl, rfl, hlast.resolve_left fun h => absurd h.1 (List.cons_ne_nil _ _)⟩

/-- Settles O55: an abort writes `run` alone, and the core then takes no step. -/
theorem abortStopsBetweenSteps : Obligations.AbortStopsBetweenSteps := by
  intro s hstart hrun
  have hen : s.enabled = true := (enabled_iff s).2 ⟨hstart, hrun⟩
  have aborted : s.abort = .next (s.setRun .aborted) := if_pos hen
  exact ⟨_, aborted, rfl, fun _ _ => rfl, rfl, rfl, fun _ _ => rfl, ⟨rfl, rfl, rfl⟩, rfl, rfl, rfl,
    steps_of_disabled (enabled_of_stopped nofun)⟩

/-- Settles O56: by the run state, and by the outcome of a load. -/
theorem exitStatusOfARun : Obligations.ExitStatusOfARun := by
  intro s hwf
  obtain ⟨_, _, _, _, badop⟩ := hwf
  refine ⟨fun h => ?_, fun op addr h => ⟨?_, badop⟩, fun h => ?_, fun f _ ⟨e, h⟩ => ?_⟩
  · rw [State.exitStatus, h]
  · rw [State.exitStatus, h]
  · rw [State.exitStatus, h]
  · rw [h, launchStatus]

end Sys2Proof.Machine
end
